-- ==== Sys2Proof/Word.lean ====
section
/-! DEFINITION. The word of the machine: one unsigned byte (spec rules R4 and R11). -/

namespace Sys2Proof

/-- Data width 8 bits, unsigned (rule R4): every register value, memory cell, opcode and operand. -/
abbrev Byte := BitVec 8

end Sys2Proof
end

