-- ==== Sys2Proof/Config.lean ====
section
/-! DEFINITION. The parameters of the machine (spec rule R5): `OPC`, `SP_INIT`, `STACK_LOW`, `FLAGS_RESET`.
Their default values are in `Machine/Parameters.lean` and, for `OPC`, in `Decode.lean`. -/

namespace Sys2Proof

/-- The thirteen mnemonics of the opcode map, in the order of rule R50. -/
inductive Mnemonic where
  | ldi | prn | mul | add | cmp | push | pop | call | ret | jmp | jeq | jne | hlt
  deriving DecidableEq, Repr

/-- All thirteen mnemonics (rule R50). -/
def Mnemonic.all : List Mnemonic :=
  [.ldi, .prn, .mul, .add, .cmp, .push, .pop, .call, .ret, .jmp, .jeq, .jne, .hlt]

/-- The flags register `fl`: three bits (rule R20). -/
structure Flags where
  /-- `fl.E`, Equal. -/
  e : Bool
  /-- `fl.L`, Less-Than. -/
  l : Bool
  /-- `fl.G`, Greater-Than. -/
  g : Bool
  deriving DecidableEq, Repr

/-- The parameter `OPC` (rules R5 and R51): the opcode byte of each mnemonic, as plain data. -/
structure OpcodeMap where
  ldi : Byte
  prn : Byte
  mul : Byte
  add : Byte
  cmp : Byte
  push : Byte
  pop : Byte
  call : Byte
  ret : Byte
  jmp : Byte
  jeq : Byte
  jne : Byte
  hlt : Byte
  deriving DecidableEq, Repr

/-- `OPC(m)` (rule R51). -/
def OpcodeMap.byte (opc : OpcodeMap) : Mnemonic → Byte
  | .ldi => opc.ldi
  | .prn => opc.prn
  | .mul => opc.mul
  | .add => opc.add
  | .cmp => opc.cmp
  | .push => opc.push
  | .pop => opc.pop
  | .call => opc.call
  | .ret => opc.ret
  | .jmp => opc.jmp
  | .jeq => opc.jeq
  | .jne => opc.jne
  | .hlt => opc.hlt

/-- The one constraint on `OPC` (rule R51): no two mnemonics share a byte. -/
abbrev OpcodeMap.Injective (opc : OpcodeMap) : Prop :=
  ∀ m ∈ Mnemonic.all, ∀ n ∈ Mnemonic.all, opc.byte m = opc.byte n → m = n

/-- The machine's fixed parameters (rule R5). `IMAGE` is the argument of `Machine.launch` and stands in no field. -/
structure Config where
  /-- `OPC`, the opcode byte values. -/
  opc : OpcodeMap
  /-- `SP_INIT`, the initial stack pointer. -/
  spInit : Byte
  /-- `STACK_LOW`, the lowest address the stack may write. -/
  stackLow : Byte
  /-- `FLAGS_RESET`, the flags before the first CMP. -/
  flagsReset : Flags
  deriving DecidableEq, Repr

/-- The constraints of rule R5: `OPC` injective and `0 ≤ STACK_LOW ≤ SP_INIT ≤ 255`
(both bounds being bytes, only the middle inequality is left to say). -/
abbrev Config.wf (c : Config) : Prop :=
  c.opc.Injective ∧ c.stackLow ≤ c.spInit

end Sys2Proof
end

