-- ==== Sys2Proof/Syntax.lean ====
section
/-! DEFINITION. The instructions: one constructor per row of spec/opcode_table.json (rule R50), carrying the operand
bytes as they stand in memory (formats F0, F1, F2 of rule R46). -/

namespace Sys2Proof

/-- An instruction with its operand bytes. A register operand is a whole byte (rule R47), so an index above 7 can be
written down; `Instr.wf` refuses it and running it raises InvalidRegister (rule R64). -/
inductive Instr where
  /-- `LDI r, imm` (R70). -/
  | ldi (r imm : Byte)
  /-- `PRN r` (R71). -/
  | prn (r : Byte)
  /-- `MUL a, b` (R73). -/
  | mul (a b : Byte)
  /-- `ADD a, b` (R74). -/
  | add (a b : Byte)
  /-- `CMP a, b` (R75). -/
  | cmp (a b : Byte)
  /-- `PUSH r` (R78). -/
  | push (r : Byte)
  /-- `POP r` (R79). -/
  | pop (r : Byte)
  /-- `CALL r` (R81). -/
  | call (r : Byte)
  /-- `RET` (R82). -/
  | ret
  /-- `JMP r` (R83). -/
  | jmp (r : Byte)
  /-- `JEQ r` (R84). -/
  | jeq (r : Byte)
  /-- `JNE r` (R85). -/
  | jne (r : Byte)
  /-- `HLT` (R87). -/
  | hlt
  deriving DecidableEq, Repr

/-- The row of the opcode map an instruction belongs to. -/
def Instr.mnemonic : Instr → Mnemonic
  | .ldi _ _ => .ldi
  | .prn _ => .prn
  | .mul _ _ => .mul
  | .add _ _ => .add
  | .cmp _ _ => .cmp
  | .push _ => .push
  | .pop _ => .pop
  | .call _ => .call
  | .ret => .ret
  | .jmp _ => .jmp
  | .jeq _ => .jeq
  | .jne _ => .jne
  | .hlt => .hlt

end Sys2Proof
end

