-- ==== Sys2Proof/WellFormed.lean ====
section
/-! DEFINITION. Well-formed instructions: every register operand names one of the eight registers (rule R47). -/

namespace Sys2Proof

/-- The operand bytes in register positions, in operand order: `regpos` of rule R59. LDI's second operand is an
immediate and is not among them (rule R48). -/
def Instr.regOperands : Instr → List Byte
  | .ldi r _ => [r]
  | .prn r => [r]
  | .mul a b => [a, b]
  | .add a b => [a, b]
  | .cmp a b => [a, b]
  | .push r => [r]
  | .pop r => [r]
  | .call r => [r]
  | .ret => []
  | .jmp r => [r]
  | .jeq r => [r]
  | .jne r => [r]
  | .hlt => []

/-- Every register operand "must resolve to 0–7" (rule R47). -/
def Instr.wf (i : Instr) : Bool :=
  i.regOperands.all fun b => decide (b ≤ 7)

end Sys2Proof
end

