-- ==== Sys2Proof/Decode.lean ====
section
/-! DEFINITION. The encoding (spec/30_encoding.md): the default opcode bytes, the decoder and the encoder, both written
from the tables of rules R46, R50 and R59, and the two readings of a table word. -/

namespace Sys2Proof

/-- The default of `OPC` (rule R50). PRESUMED: the source gives no opcode value; the spec supplies these from general
knowledge of the LS-8 (92_eei_decisions.md D1; log 1). -/
def OpcodeMap.default : OpcodeMap where
  ldi := 0x82
  prn := 0x47
  mul := 0xA2
  add := 0xA0
  cmp := 0xA7
  push := 0x45
  pop := 0x46
  call := 0x50
  ret := 0x11
  jmp := 0x54
  jeq := 0x55
  jne := 0x56
  hlt := 0x01

/-- `decode(b)` of rule R59 on one opcode byte: the mnemonic `m` with `OPC(m) = b`, or none (UnknownInstruction). -/
def OpcodeMap.lookup (opc : OpcodeMap) (b : Byte) : Option Mnemonic :=
  Mnemonic.all.find? fun m => opc.byte m == b

/-- `nops` of rule R59: the operand byte count. -/
def Mnemonic.operandBytes : Mnemonic → Nat
  | .ldi | .mul | .add | .cmp => 2
  | .prn | .push | .pop | .call | .jmp | .jeq | .jne => 1
  | .ret | .hlt => 0

/-- Length of an instruction: one opcode byte and its operand bytes (rules R45 and R49). -/
def Mnemonic.length (m : Mnemonic) : Nat :=
  1 + m.operandBytes

/-- The instruction a mnemonic makes of its operand bytes; operands the format does not have are not looked at. -/
def Mnemonic.withOperands (m : Mnemonic) (op1 op2 : Byte) : Instr :=
  match m with
  | .ldi => .ldi op1 op2
  | .prn => .prn op1
  | .mul => .mul op1 op2
  | .add => .add op1 op2
  | .cmp => .cmp op1 op2
  | .push => .push op1
  | .pop => .pop op1
  | .call => .call op1
  | .ret => .ret
  | .jmp => .jmp op1
  | .jeq => .jeq op1
  | .jne => .jne op1
  | .hlt => .hlt

/-- Why bytes are no instruction. -/
inductive DecodeError where
  /-- The byte at this offset from the opcode byte is needed and is not there (rules R61 and R63). -/
  | missingByte (offset : Nat)
  /-- The opcode byte is in no row of the table (rule R52). -/
  | unknownOpcode (b : Byte)
  deriving DecidableEq, Repr

/-- Decoding of a byte sequence (rules R49, R59, R62, R63): the opcode byte alone gives the mnemonic and so the operand
count; exactly that many operand bytes are taken, in order; the rest is handed back. Register indices are not checked
here: that is operand validation (rule R64). -/
def decode (opc : OpcodeMap) : List Byte → Except DecodeError (Instr × List Byte)
  | [] => .error (.missingByte 0)
  | b :: rest =>
    match opc.lookup b with
    | none => .error (.unknownOpcode b)
    | some m =>
      match m.operandBytes with
      | 0 => .ok (m.withOperands 0 0, rest)
      | 1 =>
        match rest with
        | op1 :: rest => .ok (m.withOperands op1 0, rest)
        | [] => .error (.missingByte 1)
      | _ =>
        match rest with
        | op1 :: op2 :: rest => .ok (m.withOperands op1 op2, rest)
        | [_] => .error (.missingByte 2)
        | [] => .error (.missingByte 1)

/-- The operand bytes of an instruction in the order of rule R46. -/
def Instr.operands : Instr → List Byte
  | .ldi r imm => [r, imm]
  | .prn r => [r]
  | .mul a b => [a, b]
  | .add a b => [a, b]
  | .cmp a b => [a, b]
  | .push r => [r]
  | .pop r => [r]
  | .call r => [r]
  | .ret => []
  | .jmp r => [r]
  | .jeq r => [r]
  | .jne r => [r]
  | .hlt => []

/-- The bytes of an instruction: opcode first, at the lowest address (rules R34 and R46). -/
def encode (opc : OpcodeMap) (i : Instr) : List Byte :=
  opc.byte i.mnemonic :: i.operands

/-- The three bytes of a table word: bit 0 is the least significant bit of the first byte, the bits from `nbits` up
are 0. Three bytes is the longest instruction (rule R45). -/
def tableBytes (nbits w : Nat) : List Byte :=
  let v := w % 2 ^ nbits
  [BitVec.ofNat 8 v, BitVec.ofNat 8 (v / 256), BitVec.ofNat 8 (v / 65536)]

/-- The instruction the decoder reads from a table word, with the default opcode bytes. -/
def decodeTableWord (nbits w : Nat) : Option Instr :=
  match decode OpcodeMap.default (tableBytes nbits w) with
  | .ok (i, _) => some i
  | .error _ => none

end Sys2Proof
end

