-- ==== Sys2Proof/Machine/Parameters.lean ====
section
/-! DEFINITION. The default values of the parameters (spec rule R5). -/

namespace Sys2Proof

/-- The defaults of rule R5: `SP_INIT` = 0xF4 (D5, log 4), `STACK_LOW` = 0 (D6, log 4), `FLAGS_RESET` = (0, 0, 0)
(D3, DESIGN CHOICE, log 3), `OPC` the table of rule R50 (D1, PRESUMED, log 1). -/
def Config.default : Config where
  opc := OpcodeMap.default
  spInit := 0xF4
  stackLow := 0
  flagsReset := ⟨false, false, false⟩

end Sys2Proof
end

