-- ==== Sys2Proof/Machine/State.lean ====
section
/-! DEFINITION. The architectural state (spec/10_state.md rule R13), the reasons a step can stop, and reset (R28). -/

namespace Sys2Proof.Machine

/-- The engine state (rule R24). -/
inductive RunState where
  | running
  | halted
  deriving DecidableEq, Repr

/-- The six fatal error kinds (rule R90). -/
inductive ErrorKind where
  /-- A memory index outside 0 to 255 (R91). -/
  | addressOutOfRange
  /-- A register index outside 0 to 7 (R92). -/
  | invalidRegister
  /-- An opcode absent from the table (R93). -/
  | unknownInstruction
  /-- An ALU operation symbol not recognised (R94). -/
  | unsupportedOperation
  /-- A push when the stack reaches down to `STACK_LOW` (R95). -/
  | stackOverflow
  /-- A pop from the empty stack (R96). -/
  | stackUnderflow
  deriving DecidableEq, Repr

/-- The content of `err` once an error is raised (rule R26): the kind and the offending value. -/
structure ErrorRecord where
  kind : ErrorKind
  info : Nat
  deriving DecidableEq, Repr

/-- The 256 cells of rule R27 as a list of (address, byte). `Memory.wf` (Ops.lean) is its canonical form. -/
abbrev Memory := List Host.Cell

/-- What an address with no entry reads as: "Every address always holds a valid byte (0 on init)" (rules R27, R28). -/
def Memory.unlisted : Byte := 0

/-- No constructor: nothing this machine does ends the model's run in a fault. The six fatal errors of the hardware are
described whole by rule R97 and are NEXT states (`State.raise`; log 13). -/
inductive Fault where
  deriving DecidableEq, Repr

/-- Where the model gives no meaning. No step raises any of these. -/
inductive Refusal where
  /-- An instruction without a meaning yet: `exec`'s arm would raise it. No arm does. Safe. -/
  | notModelled (mnemonic : String)
  /-- Raised by `launch` for an image of more than 256 bytes: "a model takes length(`IMAGE`) ≤ 256 as a premise of every
  launch and refuses others" (rule R113, U14). Safe. -/
  | imageTooLong (length : Nat)
  /-- Raised by `launch` for parameters that break the constraints of rule R5. Safe. -/
  | parametersIllFormed
  deriving DecidableEq, Repr

/-- The complete architectural state (rule R13), and the machine's fixed parameters beside it. -/
structure State where
  /-- The parameters of rule R5: not the spec's state, never written by a step (log 2). -/
  cfg : Config
  /-- General registers `x[0]` to `x[7]` (R14). -/
  x : Vector Byte 8
  /-- Program counter, an integer 0 to 256 (R17, R19; log 5). -/
  pc : Nat
  /-- Flags (R20). -/
  fl : Flags
  /-- Stack pointer, a register of its own (R22). -/
  sp : Byte
  /-- Run state (R24). -/
  run : RunState
  /-- Error record (R26). -/
  err : Option ErrorRecord
  /-- Emitted bytes, oldest first (R25). -/
  out : List Byte
  /-- Memory (R27). -/
  mem : Memory
  deriving DecidableEq, Repr

/-- The table of rule R28 for given parameters: the state after reset and before the loader acts (R110). -/
def State.resetWith (c : Config) : State where
  cfg := c
  x := Vector.replicate 8 0
  pc := 0
  fl := c.flagsReset
  sp := c.spInit
  run := .running
  err := none
  out := []
  mem := []

/-- The machine right after reset, with the default parameters of rule R5. -/
def State.reset : State :=
  State.resetWith Config.default

end Sys2Proof.Machine
end

