-- ==== Sys2Proof/Machine/Ops.lean ====
section
/-! DEFINITION. The named operations over memory, registers, pc, stack and output, raising an error (rule R97), and
reset as the one way on after it (rules R101 and R110). -/

namespace Sys2Proof.Machine

/-! ### Memory (spec/20_memory.md) -/

/-- Canonical form of a memory: addresses strictly rising, each below 256, no entry equal to what an unlisted address
reads as. Equal memories are equal lists. -/
abbrev Memory.wf (m : Memory) : Prop :=
  m.Pairwise (fun c d => c.1 < d.1) ∧ ∀ c ∈ m, c.1 < 256 ∧ c.2 ≠ Memory.unlisted

/-- The byte held for an address, with no range check. -/
def Memory.get : Memory → Nat → Byte
  | [], _ => Memory.unlisted
  | (k, w) :: rest, a => if k = a then w else Memory.get rest a

/-- Replace the byte held for an address, keeping the canonical form, with no range check. -/
def Memory.put : Memory → Nat → Byte → Memory
  | [], a, v => if v = Memory.unlisted then [] else [(a, v)]
  | (k, w) :: rest, a, v =>
    if a < k then
      if v = Memory.unlisted then (k, w) :: rest else (a, v) :: (k, w) :: rest
    else if a = k then
      if v = Memory.unlisted then rest else (a, v) :: rest
    else (k, w) :: Memory.put rest a v

/-- `MemRead(addr, 1)` (rule R31): the byte, or AddressOutOfRange outside 0 to 255. -/
def memRead (m : Memory) (a : Nat) : Except ErrorRecord Byte :=
  if a ≤ 255 then .ok (m.get a) else .error ⟨.addressOutOfRange, a⟩

/-- `MemWrite(addr, 1, v)` (rule R32): the whole cell overwritten, or AddressOutOfRange outside 0 to 255. -/
def memWrite (m : Memory) (a : Nat) (v : Byte) : Except ErrorRecord Memory :=
  if a ≤ 255 then .ok (m.put a v) else .error ⟨.addressOutOfRange, a⟩

/-- Reading one byte of a state's memory. -/
def State.read (s : State) (a : Nat) : Except ErrorRecord Byte :=
  memRead s.mem a

/-! ### Registers, pc and output -/

/-- `x[i]` (rule R14): all eight registers are alike. -/
def State.reg (s : State) (i : Fin 8) : Byte :=
  s.x[i]

/-- `x[i] <- v`: a register is written whole (rule R15). -/
def State.setReg (s : State) (i : Fin 8) (v : Byte) : State :=
  { s with x := s.x.set i v }

/-- The advance policy (rule R18): plain integer addition, no wrap (rule R19). -/
def State.advance (s : State) (n : Nat) : State :=
  { s with pc := s.pc + n }

/-- The explicit policy (rule R18): the target is always a byte (rule R80). -/
def State.jump (s : State) (target : Byte) : State :=
  { s with pc := target.toNat }

/-- `emit(v)` (rules R8 and R71): append to `out`. -/
def State.emit (s : State) (v : Byte) : State :=
  { s with out := s.out ++ [v] }

/-! ### The stack (spec/43_stack.md rule R77) -/

/-- The address a push-style write stores to: the stack pointer after its decrement (rule R33). -/
def State.pushAddress (s : State) : Nat :=
  (s.sp - 1).toNat

/-- Overflow check (rule R77, D8): refused when `sp ≤ STACK_LOW`, info `sp` (R95). -/
def checkPush (s : State) : Except ErrorRecord Unit :=
  if s.sp ≤ s.cfg.stackLow then .error ⟨.stackOverflow, s.sp.toNat⟩ else .ok ()

/-- Underflow check (rule R77, D7): refused when `sp ≥ SP_INIT`, info `sp` (R96). -/
def checkPop (s : State) : Except ErrorRecord Unit :=
  if s.cfg.spInit ≤ s.sp then .error ⟨.stackUnderflow, s.sp.toNat⟩ else .ok ()

/-- Push-style write: pre-decrement, then `MemWrite(sp, 1, v)` (rule R77). -/
def pushByte (s : State) (v : Byte) : Except ErrorRecord State := do
  let mem ← memWrite s.mem s.pushAddress v
  .ok { s with sp := s.sp - 1, mem := mem }

/-- Pop-style read: `MemRead(sp, 1)`, then post-increment; the cell keeps its value (rule R77). -/
def popByte (s : State) : Except ErrorRecord (Byte × State) := do
  let v ← memRead s.mem s.sp.toNat
  .ok (v, { s with sp := s.sp + 1 })

/-! ### Raising an error, and the way on after one -/

/-- Error entry (rule R97): `run <- Halted`, `err <- (kind, info)`, nothing else changes; `pc` keeps the address of the
instruction that raised. There is no handler, no saved state and no mode to change. -/
def State.raise (s : State) (e : ErrorRecord) : State :=
  { s with run := .halted, err := some e }

/-- The end of every instruction (rules R66 and R67): it completes with all its effects, or the error is raised on the
state the step began with. -/
def conclude (s : State) (r : Except ErrorRecord State) : Host.Outcome State Fault Refusal :=
  match r with
  | .ok t => .next t
  | .error e => .next (s.raise e)

/-- There is no return from an error (rule R101). The only way on is reset, "allowed at any time": it starts a new run and
keeps nothing (rule R110, D17), the fixed parameters apart. It is an input of the block and no step. -/
def State.restart (s : State) : State :=
  State.resetWith s.cfg

end Sys2Proof.Machine
end

