-- ==== Sys2Proof/Machine/Operands.lean ====
section
/-! DEFINITION. Operand forms: the register operand and its validation (rules R16, R47, R64). The other form, LDI's
8-bit immediate, is the operand byte itself (rule R48) and needs no operation. -/

namespace Sys2Proof.Machine

/-- Validation of a register operand (rule R64): the whole byte is the index, nothing is masked; above 7 it raises
InvalidRegister with the byte (R92). -/
def regIndex (b : Byte) : Except ErrorRecord (Fin 8) :=
  if h : b.toNat < 8 then .ok ⟨b.toNat, h⟩ else .error ⟨.invalidRegister, b.toNat⟩

/-- The operand byte that names register `i` (rule R47). -/
def regByte (i : Fin 8) : Byte :=
  BitVec.ofNat 8 i.val

end Sys2Proof.Machine
end

