-- ==== Sys2Proof/Machine/Flags.lean ====
section
/-! DEFINITION. The flags: what CMP computes (rule R75), what JEQ and JNE test (rules R84 and R85), the byte view (R20). -/

namespace Sys2Proof.Machine

/-- CMP's three flags (rule R75): equality first, then less-than, then greater-than, on unsigned bytes; all three
written. Less-Than means the FIRST operand is less (D18, log 11). -/
def compareFlags (a b : Byte) : Flags :=
  if a.toNat = b.toNat then ⟨true, false, false⟩
  else if a.toNat < b.toNat then ⟨false, true, false⟩
  else ⟨false, false, true⟩

/-- The branch condition of JEQ and JNE: the single bit `fl.E` (rule R80). -/
def State.equal (s : State) : Bool :=
  s.fl.e

/-- The status view `0b00000LGE` (rule R20). PRESUMED (D2, log 18); no instruction sees it. -/
def flagsByte (f : Flags) : Byte :=
  BitVec.ofNat 8 (f.l.toNat * 4 + f.g.toNat * 2 + f.e.toNat)

end Sys2Proof.Machine
end

