-- ==== Sys2Proof/Machine/Alu.lean ====
section
/-! DEFINITION. The ALU and MUL, ADD, CMP (spec/42_alu.md). -/

namespace Sys2Proof.Machine

/-- The operation symbol the ALU is given (rules R72 and R76). -/
inductive AluOp where
  | add
  | mul
  | cmp
  /-- "Any other operation symbol" (rule R76). No instruction selects it; the symbol has no representation in the
  hardware, so it is any number (log 14). -/
  | other (symbol : Nat)
  deriving DecidableEq, Repr

/-- Sum modulo 256 (rules R72 and R74): the exact sum, narrowed. -/
def addBytes (a b : Byte) : Byte :=
  BitVec.ofNat 8 ((a.toNat + b.toNat) % 256)

/-- Product modulo 256 (rules R72 and R73): the exact product, narrowed. -/
def mulBytes (a b : Byte) : Byte :=
  BitVec.ofNat 8 ((a.toNat * b.toNat) % 256)

/-- The ALU's contract `apply(operation, a, b)` (rule R72), in place on the register file, and on the flags for CMP. Any
other symbol fails with UnsupportedOperation (rules R76 and R94). -/
def aluApply (op : AluOp) (a b : Fin 8) (s : State) : Except ErrorRecord State :=
  match op with
  | .add => .ok (s.setReg a (addBytes (s.reg a) (s.reg b)))
  | .mul => .ok (s.setReg a (mulBytes (s.reg a) (s.reg b)))
  | .cmp => .ok { s with fl := compareFlags (s.reg a) (s.reg b) }
  | .other symbol => .error ⟨.unsupportedOperation, symbol⟩

/-- What the three ALU instructions share: both indices validated, first operand first (rule R64), the ALU applied,
`pc <- pc + 3`. -/
def execAlu (op : AluOp) (a b : Byte) (s : State) : Host.Outcome State Fault Refusal :=
  conclude s do
    let i ← regIndex a
    let j ← regIndex b
    let t ← aluApply op i j s
    .ok (t.advance 3)

/-- MUL (rule R73): `x[op1] <- (x[op1] * x[op2]) mod 256; pc <- pc + 3`. -/
def execMul (a b : Byte) (s : State) : Host.Outcome State Fault Refusal :=
  execAlu .mul a b s

/-- ADD (rule R74): `x[op1] <- (x[op1] + x[op2]) mod 256; pc <- pc + 3`. -/
def execAdd (a b : Byte) (s : State) : Host.Outcome State Fault Refusal :=
  execAlu .add a b s

/-- CMP (rule R75): the three flags from `x[op1]` and `x[op2]`; `pc <- pc + 3`. -/
def execCmp (a b : Byte) (s : State) : Host.Outcome State Fault Refusal :=
  execAlu .cmp a b s

end Sys2Proof.Machine
end

