-- ==== Sys2Proof/Machine/Control.lean ====
section
/-! DEFINITION. CALL, RET, JMP, JEQ, JNE (spec/44_control_transfer.md). -/

namespace Sys2Proof.Machine

/-- The return address as the byte the stack holds (rule R81): above 255 it is not an address and raises
AddressOutOfRange (D9, log 8). -/
def returnByte (ret : Nat) : Except ErrorRecord Byte :=
  if ret > 255 then .error ⟨.addressOutOfRange, ret⟩ else .ok (BitVec.ofNat 8 ret)

/-- CALL (rule R81): overflow check, return address `pc + 2` checked, then pushed; `pc <- x[op1]`. -/
def execCall (r : Byte) (s : State) : Host.Outcome State Fault Refusal :=
  conclude s do
    let i ← regIndex r
    checkPush s
    let ret ← returnByte (s.pc + 2)
    let t ← pushByte s ret
    .ok (t.jump (s.reg i))

/-- RET (rule R82): `if sp >= SP_INIT then raise StackUnderflow(sp); pc <- MemRead(sp, 1); sp <- sp + 1`. -/
def execRet (s : State) : Host.Outcome State Fault Refusal :=
  conclude s do
    checkPop s
    let (v, t) ← popByte s
    .ok (t.jump v)

/-- JMP (rule R83): `pc <- x[op1]`. -/
def execJmp (r : Byte) (s : State) : Host.Outcome State Fault Refusal :=
  conclude s do
    let i ← regIndex r
    .ok (s.jump (s.reg i))

/-- JEQ (rule R84): `pc <- x[op1]` if `fl.E` = 1, else `pc <- pc + 2`. The index is validated either way (D13). -/
def execJeq (r : Byte) (s : State) : Host.Outcome State Fault Refusal :=
  conclude s do
    let i ← regIndex r
    .ok (if s.equal then s.jump (s.reg i) else s.advance 2)

/-- JNE (rule R85): `pc <- x[op1]` if `fl.E` = 0, else `pc <- pc + 2`. The index is validated either way (D13). -/
def execJne (r : Byte) (s : State) : Host.Outcome State Fault Refusal :=
  conclude s do
    let i ← regIndex r
    .ok (if s.equal then s.advance 2 else s.jump (s.reg i))

end Sys2Proof.Machine
end

