-- ==== Sys2Proof/Machine/Halt.lean ====
section
/-! DEFINITION. HLT (spec/45_halt.md). -/

namespace Sys2Proof.Machine

/-- HLT (rule R87): `pc <- pc + 1; run <- Halted`; `err` stays as it is. -/
def execHlt (s : State) : Host.Outcome State Fault Refusal :=
  conclude s (.ok { s.advance 1 with run := .halted })

end Sys2Proof.Machine
end

