-- ==== Sys2Proof/Machine/LoadOutput.lean ====
section
/-! DEFINITION. LDI and PRN (spec/41_load_and_output.md). -/

namespace Sys2Proof.Machine

/-- LDI (rule R70): `x[op1] <- op2; pc <- pc + 3`. -/
def execLdi (r imm : Byte) (s : State) : Host.Outcome State Fault Refusal :=
  conclude s do
    let i ← regIndex r
    .ok ((s.setReg i imm).advance 3)

/-- PRN (rule R71): `emit(x[op1]); pc <- pc + 2`. -/
def execPrn (r : Byte) (s : State) : Host.Outcome State Fault Refusal :=
  conclude s do
    let i ← regIndex r
    .ok ((s.emit (s.reg i)).advance 2)

end Sys2Proof.Machine
end

