-- ==== Sys2Proof/Machine/Stack.lean ====
section
/-! DEFINITION. PUSH and POP (spec/43_stack.md). -/

namespace Sys2Proof.Machine

/-- PUSH (rule R78): `if sp <= STACK_LOW then raise StackOverflow(sp); sp <- sp - 1; MemWrite(sp, 1, x[op1]);
pc <- pc + 2`. -/
def execPush (r : Byte) (s : State) : Host.Outcome State Fault Refusal :=
  conclude s do
    let i ← regIndex r
    checkPush s
    let t ← pushByte s (s.reg i)
    .ok (t.advance 2)

/-- POP (rule R79): `if sp >= SP_INIT then raise StackUnderflow(sp); x[op1] <- MemRead(sp, 1); sp <- sp + 1;
pc <- pc + 2`. -/
def execPop (r : Byte) (s : State) : Host.Outcome State Fault Refusal :=
  conclude s do
    let i ← regIndex r
    checkPop s
    let (v, t) ← popByte s
    .ok ((t.setReg i v).advance 2)

end Sys2Proof.Machine
end

