-- ==== Sys2Proof/Machine/Fetch.lean ====
section
/-! DEFINITION. Fetch, decode and operand fetch (spec/40_execution_cycle.md rules R61, R62 and R63). -/

namespace Sys2Proof.Machine

/-- The bytes of memory from an address on, at most `n` of them and none past 255. -/
def codeBytes (m : Memory) (a : Nat) : Nat → List Byte
  | 0 => []
  | n + 1 =>
    match memRead m a with
    | .ok b => b :: codeBytes m (a + 1) n
    | .error _ => []

/-- The error a failed decoding at `pc` raises: the address of the byte that is not in memory (R61, R63), or the unknown
opcode byte (R62). -/
def fetchError (pc : Nat) : DecodeError → ErrorRecord
  | .missingByte offset => ⟨.addressOutOfRange, pc + offset⟩
  | .unknownOpcode b => ⟨.unknownInstruction, b.toNat⟩

/-- Phases 1 to 3 of a step: the instruction at `pc`, or the first error in the order of rule R100. The decoder is given
the bytes at `pc`, `pc + 1`, `pc + 2` that exist and takes exactly as many as the instruction has (R63, D14); a byte it
does not take has no effect, since a read has none (R31). -/
def fetchInstr (s : State) : Except ErrorRecord Instr :=
  match decode s.cfg.opc (codeBytes s.mem s.pc 3) with
  | .ok (i, _) => .ok i
  | .error e => .error (fetchError s.pc e)

/-- Store bytes at successive addresses, leaving out any that would lie past 255. -/
def storeBytes (m : Memory) (a : Nat) : List Byte → Memory
  | [] => m
  | b :: rest =>
    match memWrite m a b with
    | .ok m' => storeBytes m' (a + 1) rest
    | .error _ => m

/-- Where an instruction with this opcode byte is placed so that it can be fetched whole: at `pc`, or at 0 when it would
reach past 255 (log 19). -/
def placeFor (s : State) (opcode : Byte) : Nat :=
  let length := match s.cfg.opc.lookup opcode with
    | some m => m.length
    | none => 1
  if s.pc + length ≤ 256 then s.pc else 0

/-- The state with a table word's bytes stored where the next fetch reads, and the core Running so that it fetches. -/
def placeWord (s : State) (nbits w : Nat) : State :=
  let bytes := tableBytes nbits w
  let at_ := placeFor s (bytes.headD 0)
  { s with pc := at_, run := .running, mem := storeBytes s.mem at_ bytes }

end Sys2Proof.Machine
end

