-- ==== Sys2Proof/Machine/Step.lean ====
section
/-! DEFINITION. The step (spec rule R66) and where it fetches. -/

namespace Sys2Proof.Machine

/-- One step. Running: fetch, decode, operand fetch (R61 to R63), then `exec` (R64, R65); a fetch error is raised as any
other (R97). Halted: "nothing is fetched and no state changes until reset" (R60, R88; log 12). -/
def step (s : State) : Host.Outcome State Fault Refusal :=
  match s.run with
  | .halted => .next s
  | .running =>
    match fetchInstr s with
    | .ok i => exec i s
    | .error e => .next (s.raise e)

/-- `s` with a table word stored where `step` fetches its next instruction (`placeWord` in Fetch.lean). -/
def State.withFetchWord (s : State) (nbits w : Nat) : State :=
  placeWord s nbits w

end Sys2Proof.Machine
end

