-- ==== Sys2Proof/Machine/Boot.lean ====
section
/-! DEFINITION. Boot (spec/70_reset_and_hazards.md rules R112 and R113): the loader between reset and the first step. -/

namespace Sys2Proof.Machine

/-- The launch of a run: the reset state with memory equal to the zero-padded image, "sequential bytes starting at
address 0"; the loader writes memory only (rule R112). Parameters that break rule R5 and images of more than 256 bytes
are no launch (rule R113). -/
def launch (c : Config) (image : List Byte) : Host.Outcome State Fault Refusal :=
  if ¬ c.wf then .refused .parametersIllFormed
  else if image.length > 256 then .refused (.imageTooLong image.length)
  else .next { State.resetWith c with mem := storeBytes [] 0 image }

end Sys2Proof.Machine
end

