-- ==== Sys2Proof/Machine/Status.lean ====
section
/-! DEFINITION. The status interface (spec rule R9): error codes (R90) and the termination signal (R98). -/

namespace Sys2Proof.Machine

/-- The code of an error kind (rule R90). The numbers are the spec's own choice (D10, log 9). -/
def ErrorKind.code : ErrorKind → Nat
  | .addressOutOfRange => 1
  | .invalidRegister => 2
  | .unknownInstruction => 3
  | .unsupportedOperation => 4
  | .stackOverflow => 5
  | .stackUnderflow => 6

/-- The termination signal (rule R98): none while Running; when Halted, 0 if `err` is none, else the kind's code. -/
def State.signal (s : State) : Option Nat :=
  match s.run, s.err with
  | .running, _ => none
  | .halted, none => some 0
  | .halted, some e => some e.kind.code

end Sys2Proof.Machine
end

