-- ==== Sys2Proof/Safety.lean ====
section
/-! DEFINITION. What claims about this machine are stated in: the invariant of every run, how a run ends, what stays the
same across an instruction, and the stack as a list. -/

namespace Sys2Proof.Machine

/-- The byte at `pc` is the opcode of `m`. -/
def OpcodeAt (s : State) (m : Mnemonic) : Prop :=
  ∃ b, s.read s.pc = .ok b ∧ s.cfg.opc.lookup b = some m

/-- The instruction at `pc` is `i`: its opcode there and its operand bytes at `pc + 1` and `pc + 2` (rule R46). -/
def InstrAt (s : State) (i : Instr) : Prop :=
  OpcodeAt s i.mnemonic ∧ ∀ k b, i.operands[k]? = some b → s.read (s.pc + 1 + k) = .ok b

/-- The core is Running and the byte at `pc` is the opcode of `m`. -/
def RunningAt (s : State) (m : Mnemonic) : Prop :=
  s.run = .running ∧ OpcodeAt s m

/-- The state rule R97 says an error leaves: `run` and `err` written, nothing else. -/
def Raised (s : State) (kind : ErrorKind) (info : Nat) : State :=
  { s with run := .halted, err := some ⟨kind, info⟩ }

/-- Exactly one of the three flags is set (rule R21). -/
def ExactlyOneFlag (f : Flags) : Prop :=
  f = ⟨true, false, false⟩ ∨ f = ⟨false, true, false⟩ ∨ f = ⟨false, false, true⟩

/-- Every register reads as before. -/
def SameRegs (s t : State) : Prop :=
  ∀ j, t.reg j = s.reg j

/-- Every register but one reads as before. -/
def SameRegsBut (i : Fin 8) (s t : State) : Prop :=
  ∀ j, j ≠ i → t.reg j = s.reg j

/-- Every address reads as before. -/
def SameMemory (s t : State) : Prop :=
  ∀ a, t.read a = s.read a

/-- Every address but one reads as before. -/
def SameMemoryBut (b : Nat) (s t : State) : Prop :=
  ∀ a, a ≠ b → t.read a = s.read a

/-- The cause rules R91 to R96 give for an error, read off the state it leaves, which keeps `pc`, `sp` and memory:
* AddressOutOfRange(256): `pc` is 256, or an operand byte of the instruction at `pc` would lie past 255, or a CALL at 254
  with a good register operand and room on the stack;
* InvalidRegister: the first byte above 7 in a register position of the instruction at `pc`;
* UnknownInstruction: the byte at `pc`, the opcode of no mnemonic;
* StackOverflow: a PUSH or CALL, StackUnderflow: a POP or RET, each with a good register operand, at that `sp`. -/
def ErrorExplained (s : State) (e : ErrorRecord) : Prop :=
  match e.kind with
  | .addressOutOfRange =>
    e.info = 256 ∧
      (s.pc = 256 ∨ (∃ m, OpcodeAt s m ∧ 256 < s.pc + m.length) ∨
        ∃ i, InstrAt s i ∧ i.wf = true ∧ i.mnemonic = .call ∧ s.cfg.stackLow < s.sp ∧ s.pc = 254)
  | .invalidRegister =>
    ∃ i b, InstrAt s i ∧ i.regOperands.find? (fun r => decide (7 < r)) = some b ∧ e.info = b.toNat
  | .unknownInstruction =>
    ∃ b, s.read s.pc = .ok b ∧ e.info = b.toNat ∧ ∀ m ∈ Mnemonic.all, s.cfg.opc.byte m ≠ b
  | .unsupportedOperation => False
  | .stackOverflow =>
    ∃ i, InstrAt s i ∧ i.wf = true ∧ i.mnemonic ∈ [Mnemonic.push, .call] ∧
      e.info = s.sp.toNat ∧ s.sp ≤ s.cfg.stackLow
  | .stackUnderflow =>
    ∃ i, InstrAt s i ∧ i.wf = true ∧ i.mnemonic ∈ [Mnemonic.pop, .ret] ∧
      e.info = s.sp.toNat ∧ s.cfg.spInit ≤ s.sp

/-- The invariant of every run. -/
structure State.Inv (s : State) : Prop where
  /-- `STACK_LOW ≤ sp` (R23). -/
  spLow : s.cfg.stackLow ≤ s.sp
  /-- `sp ≤ SP_INIT` (R23). -/
  spHigh : s.sp ≤ s.cfg.spInit
  /-- `pc` is 0 to 256 (R19). -/
  pcRange : s.pc ≤ 256
  /-- Memory is in its canonical form: 256 cells, addresses 0 to 255 (R30). -/
  memory : s.mem.wf
  /-- The reset value until the first CMP, exactly one flag afterwards (R21). -/
  flags : s.fl = s.cfg.flagsReset ∨ ExactlyOneFlag s.fl
  /-- An error record stands only in a halted state (R26, R97). -/
  errHalted : s.err ≠ none → s.run = .halted
  /-- And it names a cause the state still shows (R90). -/
  errCause : ∀ e, s.err = some e → ErrorExplained s e

/-- The stack, top first: the bytes at `sp` to `SP_INIT - 1` (rule R77). -/
def State.stackBytes (s : State) : List Byte :=
  (List.range' s.sp.toNat (s.cfg.spInit.toNat - s.sp.toNat)).map s.mem.get

/-- A clean end of a run: halted by HLT (rule R69). -/
def State.CleanHalt (s : State) : Prop :=
  s.run = .halted ∧ s.err = none

/-- A run is safe while no fatal error has been raised. -/
def State.Safe (s : State) : Prop :=
  s.err = none

end Sys2Proof.Machine
end

