-- ==== Sys2Proof/Certificates/Slice0/Obligations.lean ====
section
/-! DEFINITION. The statements about the model, from the numbered rules of spec/. Each names the rules it formalises; a
clause that rests on a decision of the spec or on a choice of the model says so, and its statement cites sections. Wherever
a clause answers `Raised s kind info`, that nothing but `run` and `err` changes is the spec's own decision D11 (log 10). -/

open Sys2Proof Sys2Proof.Machine

/-! ### Encoding -/

/-- The thirteen default opcode bytes, written out bit by bit from the table of 30_encoding.md section 3, decode to their
instructions. The byte values are PRESUMED (the spec's default of `OPC`, D1; log 1). -/
def Obligations.DefaultOpcodeBytesDecode : Prop :=
  decode OpcodeMap.default [0b10000010, 0b00000101, 0b11111111] = .ok (.ldi 5 255, []) ∧
  decode OpcodeMap.default [0b01000111, 0b00000111] = .ok (.prn 7, []) ∧
  decode OpcodeMap.default [0b10100010, 0b00000001, 0b00000010] = .ok (.mul 1 2, []) ∧
  decode OpcodeMap.default [0b10100000, 0b00000011, 0b00000100] = .ok (.add 3 4, []) ∧
  decode OpcodeMap.default [0b10100111, 0b00000000, 0b00000110] = .ok (.cmp 0 6, []) ∧
  decode OpcodeMap.default [0b01000101, 0b00000010] = .ok (.push 2, []) ∧
  decode OpcodeMap.default [0b01000110, 0b00000100] = .ok (.pop 4, []) ∧
  decode OpcodeMap.default [0b01010000, 0b00000001] = .ok (.call 1, []) ∧
  decode OpcodeMap.default [0b00010001] = .ok (.ret, []) ∧
  decode OpcodeMap.default [0b01010100, 0b00000011] = .ok (.jmp 3, []) ∧
  decode OpcodeMap.default [0b01010101, 0b00000101] = .ok (.jeq 5, []) ∧
  decode OpcodeMap.default [0b01010110, 0b00000110] = .ok (.jne 6, []) ∧
  decode OpcodeMap.default [0b00000001] = .ok (.hlt, [])

/-- Decode of encode is the instruction, with every operand byte, for every `OPC` the spec allows (R45, R46, R51, R59). -/
def Obligations.DecodeOfEncodeIsTheInstruction : Prop :=
  ∀ opc : OpcodeMap, opc.Injective → ∀ (i : Instr) (rest : List Byte),
    decode opc (encode opc i ++ rest) = .ok (i, rest)

/-- The other direction: bytes that decode are the encoding of what they decode to (each byte sequence has one reading). -/
def Obligations.EncodeOfDecodeIsTheBytes : Prop :=
  ∀ (opc : OpcodeMap) (bytes rest : List Byte) (i : Instr),
    decode opc bytes = .ok (i, rest) → bytes = encode opc i ++ rest

/-- Illegal opcodes (R52): 243 of the 256 byte values are illegal opcodes, for every `OPC`, and fetching one is UnknownInstruction with a
non-zero signal. That nothing else changes is the spec's own decision D11 (log 10). -/
def Obligations.IllegalOpcodeBytesAreUnknownInstructions : Prop :=
  ∀ opc : OpcodeMap, opc.Injective →
    (List.range 256).countP (fun n => decide (∀ m ∈ Mnemonic.all, opc.byte m ≠ BitVec.ofNat 8 n)) = 243 ∧
    ∀ (s : State) (b : Byte), s.cfg.opc = opc → s.run = .running → s.read s.pc = .ok b →
      (∀ m ∈ Mnemonic.all, opc.byte m ≠ b) → step s = .next (Raised s .unknownInstruction b.toNat) ∧
        ∃ n, n ≠ 0 ∧ (Raised s .unknownInstruction b.toNat).signal = some n

/-! ### Reset and launch -/

/-- The reset table of R28 for every value of the parameters, then R112: the launch state is the reset state with memory
equal to the zero-padded image. -/
def Obligations.ResetAndLoadedState : Prop :=
  ∀ c : Config,
    (∀ s : State, s = State.resetWith c →
      (∀ i, s.reg i = 0) ∧ s.pc = 0 ∧ s.fl = c.flagsReset ∧ s.sp = c.spInit ∧ s.run = .running ∧ s.err = none ∧
        s.out = [] ∧ ∀ a, a ≤ 255 → s.read a = .ok 0) ∧
    ∀ image : List Byte, c.wf → image.length ≤ 256 →
      ∃ t, launch c image = .next t ∧ t = { State.resetWith c with mem := t.mem } ∧
        ∀ a, a ≤ 255 → t.read a = .ok (image.getD a 0)

/-- The reset state of the interface, with the spec's default parameters: `SP_INIT` = 0xF4 (D5), `STACK_LOW` = 0 (D6),
flags clear (D3). These defaults are the spec's choices (logs 3 and 4). -/
def Obligations.ResetStateWithDefaultParameters : Prop :=
  (∀ i, State.reset.reg i = 0) ∧ State.reset.pc = 0 ∧ State.reset.fl = ⟨false, false, false⟩ ∧
    State.reset.sp = 0xF4 ∧ State.reset.cfg.stackLow = 0 ∧ State.reset.cfg.spInit = 0xF4 ∧ State.reset.cfg.wf ∧
    State.reset.run = .running ∧ State.reset.err = none ∧ State.reset.out = [] ∧
    (∀ a, a ≤ 255 → State.reset.read a = .ok 0) ∧ State.reset.signal = none

/-- An image of more than 256 bytes is no launch (70_reset_and_hazards.md section 2, D17; log 16). -/
def Obligations.LongImageIsRefused : Prop :=
  ∀ (c : Config) (image : List Byte), c.wf → 256 < image.length →
    launch c image = .refused (.imageTooLong image.length)

/-- Reset, and reset of a machine in any state, meet the invariant. -/
def Obligations.ResetMeetsInvariant : Prop :=
  (∀ c : Config, c.wf → (State.resetWith c).Inv) ∧ State.reset.Inv ∧ ∀ s : State, s.cfg.wf → s.restart.Inv

/-- Every step keeps the invariant: stack pointer in its limits, pc at most 256, memory canonical, flags the reset value or
exactly one set, an error only in a halted state, with the cause its kind lists still shown by that state (R19, R21, R23,
R26, R90 to R96). That the state still shows it rests on D11 (log 10). -/
def Obligations.StepKeepsInvariant : Prop :=
  ∀ s t : State, s.Inv → step s = .next t → t.Inv

/-! ### The step -/

/-- When the bytes at `pc` decode to a well-formed instruction, the step is `exec` of it (R65, R66). `exec` itself applies the
PC policy; the step adds nothing around it. -/
def Obligations.StepRunsDecodedInstruction : Prop :=
  ∀ (s : State) (i : Instr) (rest : List Byte), s.run = .running →
    decode s.cfg.opc (codeBytes s.mem s.pc 3) = .ok (i, rest) → i.wf = true → step s = exec i s

/-- When memory from `pc` on holds an instruction's encoding, the step is `exec` of it: ill-formed operands included, and
for an instruction ending at any address up to 255. -/
def Obligations.EncodedInstructionInMemoryRuns : Prop :=
  ∀ (s : State) (i : Instr), s.cfg.opc.Injective → s.run = .running →
    (∀ k b, (encode s.cfg.opc i)[k]? = some b → s.read (s.pc + k) = .ok b) → step s = exec i s

/-- The two errors of fetch and decode (R61, R62): `pc` stays at the opcode byte and the termination signal of an unknown
opcode is not 0. That nothing but `run` and `err` changes is the spec's own decision D11 (log 10). -/
def Obligations.OpcodeFetchAndDecodeErrors : Prop :=
  ∀ s : State, s.run = .running →
    (255 < s.pc → step s = .next (Raised s .addressOutOfRange s.pc)) ∧
    ∀ b, s.read s.pc = .ok b → s.cfg.opc.lookup b = none →
      ∃ t n, step s = .next t ∧ t = Raised s .unknownInstruction b.toNat ∧ t.pc = s.pc ∧ n ≠ 0 ∧ t.signal = some n

/-- Operand fetch (R63): an operand byte at 256 is AddressOutOfRange(256), before any index is looked at; an instruction
whose own bytes fit is executed, whatever lies behind it (D14). -/
def Obligations.OperandFetchReadsExactlyTheOperands : Prop :=
  ∀ (s : State) (m : Mnemonic), RunningAt s m →
    (256 < s.pc + m.length → step s = .next (Raised s .addressOutOfRange 256)) ∧
    (s.pc + m.length ≤ 256 → ∃ i : Instr, i.mnemonic = m ∧ step s = exec i s ∧
      ∀ k b, i.operands[k]? = some b → s.read (s.pc + 1 + k) = .ok b)

/-- Operand validation (R64, R92): the first register operand above 7 is reported, in operand order, before anything the
instruction does (D11, D12, D13; logs 10, 21, 20), on every instruction. -/
def Obligations.FirstBadRegisterIsReported : Prop :=
  ∀ (i : Instr) (s : State) (b : Byte), i.regOperands.find? (fun r => decide (7 < r)) = some b →
    exec i s = .next (Raised s .invalidRegister b.toNat)

/-- Error entry (R97): a step that raises an error writes `run` and `err` and nothing else. That a failing instruction leaves
no partial effect is the spec's own decision D11 (log 10). -/
def Obligations.ErrorEntryChangesOnlyRunAndErr : Prop :=
  ∀ s t : State, step s = .next t → t.err ≠ s.err →
    ∃ kind info, t = { s with run := .halted, err := some ⟨kind, info⟩ }

/-- R90 to R96: an error raised by a step has the cause its kind lists, which the state it leaves still shows
(`ErrorExplained`): the register operand byte of the instruction at `pc` for InvalidRegister, the PUSH, CALL, POP or RET at
`pc` for a stack error, the byte at `pc` for UnknownInstruction, one of its four places for AddressOutOfRange; `pc` keeps the
address of the instruction. The record's content and precision are the spec's decision D11 (log 10), the order of checks
D12 (log 21). -/
def Obligations.RaisedErrorHasItsListedCause : Prop :=
  ∀ (s t : State) (e : ErrorRecord), s.pc ≤ 256 → s.err = none → step s = .next t → t.err = some e →
    t.pc = s.pc ∧ ErrorExplained t e

/-- R76 and R94: the ALU fails on any other operation symbol, and no step ever makes it see one. -/
def Obligations.UnsupportedOperationIsUnreachable : Prop :=
  (∀ (n : Nat) (a b : Fin 8) (s : State), aluApply (.other n) a b s = .error ⟨.unsupportedOperation, n⟩) ∧
  ∀ s t : State, (∀ e, s.err = some e → e.kind ≠ .unsupportedOperation) → step s = .next t →
    ∀ e, t.err = some e → e.kind ≠ .unsupportedOperation

/-- R88: a halted machine keeps its whole state, however many steps are asked of it; reset starts a new run and discards
the old state: two machines with the same parameters are reset to the same state. -/
def Obligations.HaltedIsForGood : Prop :=
  ∀ s : State, s.run = .halted → (∀ n, Host.Core.run core n s = .next s) ∧ s.restart.run = .running ∧
    ∀ u : State, u.cfg = s.cfg → u.restart = s.restart

/-- From every state a step answers a next state: no fault and no refusal anywhere (R60, R66; log 13). -/
def Obligations.EveryStepAnswersNext : Prop :=
  ∀ s : State, ∃ t, step s = .next t

/-- The two ends of a run (R24, R69) and the termination signal of each (R98; the numbers are D10's, log 9). -/
def Obligations.HaltsOnlyByHltOrError : Prop :=
  (∀ s t : State, s.run = .running → s.err = none → step s = .next t → t.run = .halted →
    (RunningAt s .hlt ∧ t = { s with pc := s.pc + 1, run := .halted } ∧ t.signal = some 0) ∨
    ∃ kind info, t = Raised s kind info ∧ t.signal = some kind.code ∧ kind.code ≠ 0) ∧
  ∀ k l : ErrorKind, k.code = l.code → k = l

/-! ### Memory -/

/-- R31 and R32, the two access primitives: inside 0 to 255 a write stores the whole cell and no other cell changes, and a
read gives the stored byte; outside, both raise AddressOutOfRange with the address. -/
def Obligations.MemoryReadAndWriteContract : Prop :=
  ∀ (m : Memory) (a : Nat) (v : Byte), m.wf →
    (a ≤ 255 → ∃ m', memWrite m a v = .ok m' ∧ m'.wf ∧ memRead m' a = .ok v ∧ ∀ b, b ≠ a → memRead m' b = memRead m b) ∧
    (255 < a → memWrite m a v = .error ⟨.addressOutOfRange, a⟩ ∧ memRead m a = .error ⟨.addressOutOfRange, a⟩)

/-! ### Rules of the whole machine -/

/-- `STACK_LOW ≤ sp ≤ SP_INIT` is kept by every step (R23). -/
def Obligations.StackPointerStaysInItsLimits : Prop :=
  ∀ s t : State, s.cfg.stackLow ≤ s.sp → s.sp ≤ s.cfg.spInit → step s = .next t →
    t.cfg.stackLow ≤ t.sp ∧ t.sp ≤ t.cfg.spInit

/-- `pc` stays 0 to 256, and 256 is never left but by reset (R19): it is reached with the last byte of the instruction at
255, and the next step raises. -/
def Obligations.PcNeverPasses256 : Prop :=
  ∀ s t : State, s.pc ≤ 256 → step s = .next t → t.pc ≤ 256 ∧ (s.pc = 256 → t.pc = 256 ∧ t.run = .halted)

/-- Only CMP writes the flags, and a completed CMP leaves exactly one set (R21). -/
def Obligations.OnlyCmpWritesFlags : Prop :=
  ∀ s t : State, step s = .next t →
    (t.fl ≠ s.fl → RunningAt s .cmp) ∧ (RunningAt s .cmp → t.run = .running → ExactlyOneFlag t.fl)

/-- `fl.L` and `fl.G` are written and never read (R21): changing them before a step changes nothing else after it. -/
def Obligations.LessAndGreaterAreNeverRead : Prop :=
  ∀ (s t : State) (l g : Bool), step s = .next t →
    ∃ u, step { s with fl := ⟨s.fl.e, l, g⟩ } = .next u ∧ u = { t with fl := u.fl } ∧ u.fl.e = t.fl.e ∧
      (u.fl = t.fl ∨ u.fl = ⟨s.fl.e, l, g⟩ ∧ t.fl = s.fl)

/-- `out` only grows, by at most one byte a step, by PRN alone, and nothing reads it (R25). -/
def Obligations.OutputIsAppendedByPrnAndNeverRead : Prop :=
  ∀ s t : State, step s = .next t →
    ∃ new : List Byte, t.out = s.out ++ new ∧ new.length ≤ 1 ∧ (new ≠ [] → RunningAt s .prn) ∧
      ∀ o, step { s with out := o } = .next { t with out := o ++ new }

/-- A step changes a byte of memory only by PUSH or CALL, at the push address, inside `STACK_LOW` to `SP_INIT - 1`
(R27, R33, R37). -/
def Obligations.OnlyPushAndCallWriteMemory : Prop :=
  ∀ (s t : State) (a : Nat), s.sp ≤ s.cfg.spInit → step s = .next t → t.read a ≠ s.read a →
    (RunningAt s .push ∨ RunningAt s .call) ∧ a = s.pushAddress ∧ s.cfg.stackLow.toNat ≤ a ∧ a < s.cfg.spInit.toNat

/-- `sp` moves only by PUSH and CALL, down by 1, and by POP and RET, up by 1 (R22). -/
def Obligations.OnlyStackInstructionsMoveSp : Prop :=
  ∀ s t : State, step s = .next t → t.sp ≠ s.sp →
    ((RunningAt s .push ∨ RunningAt s .call) ∧ t.sp.toNat + 1 = s.sp.toNat) ∨
    ((RunningAt s .pop ∨ RunningAt s .ret) ∧ t.sp.toNat = s.sp.toNat + 1)

/-- A register changes only by LDI, MUL, ADD or POP, and only the one the first operand byte names (R15). -/
def Obligations.OnlyFourInstructionsWriteRegisters : Prop :=
  ∀ (s t : State) (i : Fin 8), step s = .next t → t.reg i ≠ s.reg i →
    (RunningAt s .ldi ∨ RunningAt s .mul ∨ RunningAt s .add ∨ RunningAt s .pop) ∧
      s.read (s.pc + 1) = .ok (regByte i)

/-- The parameters never change during a run (R13). The field that carries them is the model's own (log 2). -/
def Obligations.ParametersNeverChange : Prop :=
  ∀ (n : Nat) (s t : State), Host.Core.run core n s = .next t → t.cfg = s.cfg

/-- The two PC policies (R18): an instruction that completes advances by its length, unless it is a transfer, whose target
is a byte. -/
def Obligations.PcAdvancesByLengthOrTransfers : Prop :=
  ∀ (i : Instr) (s t : State), s.err = none → exec i s = .next t → t.err = none →
    t.pc = s.pc + (encode s.cfg.opc i).length ∨
    (i.mnemonic ∈ [Mnemonic.call, .ret, .jmp, .jeq, .jne] ∧ t.pc ≤ 255)

/-! ### Laws across instructions -/

/-- The source's law of CMP: swapping the operands swaps Less-Than and Greater-Than, and unequal values never give Equal. -/
def Obligations.CompareSwappedSwapsLessAndGreater : Prop :=
  ∀ (s : State) (i j : Fin 8), ∃ t u,
    exec (.cmp (regByte i) (regByte j)) s = .next t ∧ exec (.cmp (regByte j) (regByte i)) s = .next u ∧
      ExactlyOneFlag t.fl ∧ u.fl = ⟨t.fl.e, t.fl.g, t.fl.l⟩ ∧ (s.reg i ≠ s.reg j → t.fl.e = false ∧ u.fl.e = false)

/-- The stack round-trip law: PUSH r then POP r2 puts `x[r]` into `x[r2]` and brings `sp` back; only the pushed cell of
memory is touched. -/
def Obligations.PushThenPopRoundTrip : Prop :=
  ∀ (s : State) (i j : Fin 8), s.mem.wf → s.cfg.stackLow < s.sp → s.sp ≤ s.cfg.spInit →
    ∃ t u, exec (.push (regByte i)) s = .next t ∧ exec (.pop (regByte j)) t = .next u ∧
      u.reg j = s.reg i ∧ SameRegsBut j s u ∧ SameMemoryBut s.pushAddress s u ∧
      u = { s with x := u.x, mem := u.mem, pc := s.pc + 4 }

/-- CALL then RET resumes behind the CALL's operand: for every state `v` reached in between that is balanced (`sp` as the CALL
left it) and has not overwritten the return byte. -/
def Obligations.CallThenReturnResumes : Prop :=
  ∀ (s : State) (i : Fin 8), s.mem.wf → s.cfg.stackLow < s.sp → s.sp ≤ s.cfg.spInit → s.pc + 2 ≤ 255 →
    ∃ t, exec (.call (regByte i)) s = .next t ∧ t.pc = (s.reg i).toNat ∧
      ∀ v : State, v.cfg = t.cfg → v.sp = t.sp → v.read t.sp.toNat = t.read t.sp.toNat →
        ∃ u, exec .ret v = .next u ∧ u.pc = s.pc + 2 ∧ u.sp = s.sp ∧ u = { v with pc := u.pc, sp := u.sp }

/-- The bytes from `sp` to `SP_INIT - 1` are a last-in first-out list: PUSH and CALL put one byte on top, POP and RET take the
top one, no other instruction changes it, and it holds at most `SP_INIT - STACK_LOW` bytes (R77). -/
def Obligations.StackIsLastInFirstOut : Prop :=
  ∀ s : State, s.mem.wf → s.cfg.stackLow ≤ s.sp → s.sp ≤ s.cfg.spInit →
    s.stackBytes.length = s.cfg.spInit.toNat - s.sp.toNat ∧
    s.stackBytes.length ≤ s.cfg.spInit.toNat - s.cfg.stackLow.toNat ∧
    (∀ i : Fin 8, s.cfg.stackLow < s.sp →
      ∃ t, exec (.push (regByte i)) s = .next t ∧ t.stackBytes = s.reg i :: s.stackBytes) ∧
    (∀ i : Fin 8, s.cfg.stackLow < s.sp → s.pc + 2 ≤ 255 →
      ∃ t, exec (.call (regByte i)) s = .next t ∧ t.stackBytes = BitVec.ofNat 8 (s.pc + 2) :: s.stackBytes) ∧
    (∀ (i : Fin 8) (v : Byte) (rest : List Byte), s.stackBytes = v :: rest →
      ∃ t, exec (.pop (regByte i)) s = .next t ∧ t.reg i = v ∧ t.stackBytes = rest) ∧
    (∀ (v : Byte) (rest : List Byte), s.stackBytes = v :: rest →
      ∃ t, exec .ret s = .next t ∧ t.pc = v.toNat ∧ t.stackBytes = rest) ∧
    (∀ (i : Instr) (t : State), i.mnemonic ∉ [Mnemonic.push, .call, .pop, .ret] → exec i s = .next t →
      t.stackBytes = s.stackBytes)

/-- Fetch coherence (R43): a byte stored by PUSH or CALL is among the bytes the very next step decodes, when it lies there. -/
def Obligations.StoredByteIsFetchedAtOnce : Prop :=
  ∀ (s t : State) (i : Fin 8) (k : Nat), s.mem.wf → s.cfg.stackLow < s.sp → k < 3 → t.pc + k = s.pushAddress →
    (exec (.push (regByte i)) s = .next t → (codeBytes t.mem t.pc 3)[k]? = some (s.reg i)) ∧
    (s.pc + 2 ≤ 255 → exec (.call (regByte i)) s = .next t →
      (codeBytes t.mem t.pc 3)[k]? = some (BitVec.ofNat 8 (s.pc + 2)))

/-! ### The thirteen instructions

Each statement has: the effect, as an answered next state with everything it leaves unchanged; the errors of the
instruction's own rule; the fault of its position; its encoding. -/

/-- LDI (R70). -/
def Obligations.LdiLoadsTheImmediate : Prop :=
  ∀ (s : State) (imm : Byte),
    (∀ i : Fin 8, ∃ t, exec (.ldi (regByte i) imm) s = .next t ∧
      t.reg i = imm ∧ SameRegsBut i s t ∧ SameMemory s t ∧ t = { s with x := t.x, pc := s.pc + 3 }) ∧
    (∀ r : Byte, 7 < r → exec (.ldi r imm) s = .next (Raised s .invalidRegister r.toNat)) ∧
    (RunningAt s .ldi → 254 ≤ s.pc → step s = .next (Raised s .addressOutOfRange 256)) ∧
    (∀ (opc : OpcodeMap) (r : Byte), encode opc (.ldi r imm) = [opc.ldi, r, imm])

/-- PRN (R71). -/
def Obligations.PrnEmitsTheRegister : Prop :=
  ∀ s : State,
    (∀ i : Fin 8, ∃ t, exec (.prn (regByte i)) s = .next t ∧
      t.out = s.out ++ [s.reg i] ∧ SameRegs s t ∧ SameMemory s t ∧ t = { s with out := t.out, pc := s.pc + 2 }) ∧
    (∀ r : Byte, 7 < r → exec (.prn r) s = .next (Raised s .invalidRegister r.toNat)) ∧
    (RunningAt s .prn → s.pc = 255 → step s = .next (Raised s .addressOutOfRange 256)) ∧
    (∀ (opc : OpcodeMap) (r : Byte), encode opc (.prn r) = [opc.prn, r])

/-- MUL (R73). The second register is unchanged unless it is the first (the square). -/
def Obligations.MulMultipliesModulo256 : Prop :=
  ∀ s : State,
    (∀ i j : Fin 8, ∃ t, exec (.mul (regByte i) (regByte j)) s = .next t ∧
      (t.reg i).toNat = ((s.reg i).toNat * (s.reg j).toNat) % 256 ∧ SameRegsBut i s t ∧ SameMemory s t ∧
      t = { s with x := t.x, pc := s.pc + 3 }) ∧
    (∀ a b : Byte, 7 < a → exec (.mul a b) s = .next (Raised s .invalidRegister a.toNat)) ∧
    (∀ a b : Byte, a ≤ 7 → 7 < b → exec (.mul a b) s = .next (Raised s .invalidRegister b.toNat)) ∧
    (RunningAt s .mul → 254 ≤ s.pc → step s = .next (Raised s .addressOutOfRange 256)) ∧
    (∀ (opc : OpcodeMap) (a b : Byte), encode opc (.mul a b) = [opc.mul, a, b])

/-- ADD (R74). The second register is unchanged unless it is the first (the doubling). -/
def Obligations.AddAddsModulo256 : Prop :=
  ∀ s : State,
    (∀ i j : Fin 8, ∃ t, exec (.add (regByte i) (regByte j)) s = .next t ∧
      (t.reg i).toNat = ((s.reg i).toNat + (s.reg j).toNat) % 256 ∧ SameRegsBut i s t ∧ SameMemory s t ∧
      t = { s with x := t.x, pc := s.pc + 3 }) ∧
    (∀ a b : Byte, 7 < a → exec (.add a b) s = .next (Raised s .invalidRegister a.toNat)) ∧
    (∀ a b : Byte, a ≤ 7 → 7 < b → exec (.add a b) s = .next (Raised s .invalidRegister b.toNat)) ∧
    (RunningAt s .add → 254 ≤ s.pc → step s = .next (Raised s .addressOutOfRange 256)) ∧
    (∀ (opc : OpcodeMap) (a b : Byte), encode opc (.add a b) = [opc.add, a, b])

/-- CMP (R75). That Less-Than means the first operand is less is the spec's decision D18 (log 11). -/
def Obligations.CmpWritesAllThreeFlags : Prop :=
  ∀ s : State,
    (∀ i j : Fin 8, ∃ t, exec (.cmp (regByte i) (regByte j)) s = .next t ∧
      (t.fl.e = true ↔ (s.reg i).toNat = (s.reg j).toNat) ∧ (t.fl.l = true ↔ (s.reg i).toNat < (s.reg j).toNat) ∧
      (t.fl.g = true ↔ (s.reg j).toNat < (s.reg i).toNat) ∧ SameRegs s t ∧ SameMemory s t ∧
      t = { s with fl := t.fl, pc := s.pc + 3 }) ∧
    (∀ a b : Byte, 7 < a → exec (.cmp a b) s = .next (Raised s .invalidRegister a.toNat)) ∧
    (∀ a b : Byte, a ≤ 7 → 7 < b → exec (.cmp a b) s = .next (Raised s .invalidRegister b.toNat)) ∧
    (RunningAt s .cmp → 254 ≤ s.pc → step s = .next (Raised s .addressOutOfRange 256)) ∧
    (∀ (opc : OpcodeMap) (a b : Byte), encode opc (.cmp a b) = [opc.cmp, a, b])

/-- PUSH (R78). The limit is the spec's reading D8 (log 7). -/
def Obligations.PushStoresBelowTheStackPointer : Prop :=
  ∀ s : State,
    (∀ i : Fin 8, s.mem.wf → s.cfg.stackLow < s.sp → ∃ t, exec (.push (regByte i)) s = .next t ∧
      t.sp.toNat + 1 = s.sp.toNat ∧ s.pushAddress = t.sp.toNat ∧ t.read s.pushAddress = .ok (s.reg i) ∧
      SameMemoryBut s.pushAddress s t ∧ SameRegs s t ∧ t = { s with sp := t.sp, mem := t.mem, pc := s.pc + 2 }) ∧
    (∀ i : Fin 8, s.sp ≤ s.cfg.stackLow → exec (.push (regByte i)) s = .next (Raised s .stackOverflow s.sp.toNat)) ∧
    (∀ r : Byte, 7 < r → exec (.push r) s = .next (Raised s .invalidRegister r.toNat)) ∧
    (RunningAt s .push → s.pc = 255 → step s = .next (Raised s .addressOutOfRange 256)) ∧
    (∀ (opc : OpcodeMap) (r : Byte), encode opc (.push r) = [opc.push, r])

/-- POP (R79). The limit is the spec's reading D7 (log 6). The popped cell keeps its value: all of memory is unchanged. -/
def Obligations.PopLoadsTheTopOfStack : Prop :=
  ∀ s : State,
    (∀ i : Fin 8, s.sp < s.cfg.spInit → ∃ t v, exec (.pop (regByte i)) s = .next t ∧
      s.read s.sp.toNat = .ok v ∧ t.reg i = v ∧ SameRegsBut i s t ∧ t.sp.toNat = s.sp.toNat + 1 ∧ SameMemory s t ∧
      t = { s with x := t.x, sp := t.sp, pc := s.pc + 2 }) ∧
    (∀ i : Fin 8, s.cfg.spInit ≤ s.sp → exec (.pop (regByte i)) s = .next (Raised s .stackUnderflow s.sp.toNat)) ∧
    (∀ r : Byte, 7 < r → exec (.pop r) s = .next (Raised s .invalidRegister r.toNat)) ∧
    (RunningAt s .pop → s.pc = 255 → step s = .next (Raised s .addressOutOfRange 256)) ∧
    (∀ (opc : OpcodeMap) (r : Byte), encode opc (.pop r) = [opc.pop, r])

/-- CALL (R81). AddressOutOfRange for a return address past 255 is the spec's decision D9 (log 8); the stack check comes
first. -/
def Obligations.CallPushesTheReturnAddressAndJumps : Prop :=
  ∀ s : State,
    (∀ i : Fin 8, s.mem.wf → s.cfg.stackLow < s.sp → s.pc + 2 ≤ 255 → ∃ t, exec (.call (regByte i)) s = .next t ∧
      t.pc = (s.reg i).toNat ∧ t.sp.toNat + 1 = s.sp.toNat ∧ s.pushAddress = t.sp.toNat ∧
      t.read s.pushAddress = .ok (BitVec.ofNat 8 (s.pc + 2)) ∧ SameMemoryBut s.pushAddress s t ∧ SameRegs s t ∧
      t = { s with pc := t.pc, sp := t.sp, mem := t.mem }) ∧
    (∀ i : Fin 8, s.sp ≤ s.cfg.stackLow → exec (.call (regByte i)) s = .next (Raised s .stackOverflow s.sp.toNat)) ∧
    (∀ i : Fin 8, s.cfg.stackLow < s.sp → 255 < s.pc + 2 →
      exec (.call (regByte i)) s = .next (Raised s .addressOutOfRange (s.pc + 2))) ∧
    (∀ r : Byte, 7 < r → exec (.call r) s = .next (Raised s .invalidRegister r.toNat)) ∧
    (RunningAt s .call → s.pc = 255 → step s = .next (Raised s .addressOutOfRange 256)) ∧
    (∀ (opc : OpcodeMap) (r : Byte), encode opc (.call r) = [opc.call, r])

/-- RET (R82). The limit is the spec's reading D7 (log 6). RET has no operand byte, so it runs at 255 too. -/
def Obligations.RetPopsThePc : Prop :=
  ∀ s : State,
    (s.sp < s.cfg.spInit → ∃ t v, exec .ret s = .next t ∧ s.read s.sp.toNat = .ok v ∧ t.pc = v.toNat ∧
      t.sp.toNat = s.sp.toNat + 1 ∧ SameRegs s t ∧ SameMemory s t ∧ t = { s with pc := t.pc, sp := t.sp }) ∧
    (s.cfg.spInit ≤ s.sp → exec .ret s = .next (Raised s .stackUnderflow s.sp.toNat)) ∧
    (RunningAt s .ret → step s = exec .ret s) ∧
    (∀ opc : OpcodeMap, encode opc .ret = [opc.ret])

/-- JMP (R83). -/
def Obligations.JmpSetsThePc : Prop :=
  ∀ s : State,
    (∀ i : Fin 8, ∃ t, exec (.jmp (regByte i)) s = .next t ∧
      t.pc = (s.reg i).toNat ∧ SameRegs s t ∧ SameMemory s t ∧ t = { s with pc := t.pc }) ∧
    (∀ r : Byte, 7 < r → exec (.jmp r) s = .next (Raised s .invalidRegister r.toNat)) ∧
    (RunningAt s .jmp → s.pc = 255 → step s = .next (Raised s .addressOutOfRange 256)) ∧
    (∀ (opc : OpcodeMap) (r : Byte), encode opc (.jmp r) = [opc.jmp, r])

/-- JEQ (R84). The index is validated taken or not (D13, log 20). -/
def Obligations.JeqJumpsIffEqual : Prop :=
  ∀ s : State,
    (∀ i : Fin 8, ∃ t, exec (.jeq (regByte i)) s = .next t ∧
      (s.fl.e = true → t.pc = (s.reg i).toNat) ∧ (s.fl.e = false → t.pc = s.pc + 2) ∧ SameRegs s t ∧ SameMemory s t ∧
      t = { s with pc := t.pc }) ∧
    (∀ r : Byte, 7 < r → exec (.jeq r) s = .next (Raised s .invalidRegister r.toNat)) ∧
    (RunningAt s .jeq → s.pc = 255 → step s = .next (Raised s .addressOutOfRange 256)) ∧
    (∀ (opc : OpcodeMap) (r : Byte), encode opc (.jeq r) = [opc.jeq, r])

/-- JNE (R85). The index is validated taken or not (D13, log 20). -/
def Obligations.JneJumpsIffNotEqual : Prop :=
  ∀ s : State,
    (∀ i : Fin 8, ∃ t, exec (.jne (regByte i)) s = .next t ∧
      (s.fl.e = false → t.pc = (s.reg i).toNat) ∧ (s.fl.e = true → t.pc = s.pc + 2) ∧ SameRegs s t ∧ SameMemory s t ∧
      t = { s with pc := t.pc }) ∧
    (∀ r : Byte, 7 < r → exec (.jne r) s = .next (Raised s .invalidRegister r.toNat)) ∧
    (RunningAt s .jne → s.pc = 255 → step s = .next (Raised s .addressOutOfRange 256)) ∧
    (∀ (opc : OpcodeMap) (r : Byte), encode opc (.jne r) = [opc.jne, r])

/-- HLT (R87): advance 1, then Halted, `err` unchanged, at every address up to 255; the termination signal is 0. -/
def Obligations.HltAdvancesAndHalts : Prop :=
  ∀ s : State,
    (∃ t, exec .hlt s = .next t ∧ t.run = .halted ∧ t.pc = s.pc + 1 ∧ SameRegs s t ∧ SameMemory s t ∧
      t = { s with run := t.run, pc := t.pc } ∧ (s.err = none → t.signal = some 0)) ∧
    (RunningAt s .hlt → step s = exec .hlt s) ∧
    (s.run = .running → 255 < s.pc → step s = .next (Raised s .addressOutOfRange s.pc)) ∧
    (∀ opc : OpcodeMap, encode opc .hlt = [opc.hlt])
end

