-- ==== Sys2Proof/Laws/Decode.lean ====
section
/-! SUPPORT. What looking an opcode byte up can answer. -/

namespace Sys2Proof

theorem Mnemonic.mem_all (m : Mnemonic) : m ∈ Mnemonic.all := by
  cases m <;> decide

theorem OpcodeMap.byte_of_lookup {opc : OpcodeMap} {b : Byte} {m : Mnemonic} (h : opc.lookup b = some m) :
    opc.byte m = b := by
  simpa using List.find?_some h

theorem OpcodeMap.lookup_eq_none {opc : OpcodeMap} {b : Byte} :
    opc.lookup b = none ↔ ∀ m ∈ Mnemonic.all, opc.byte m ≠ b := by
  simp [OpcodeMap.lookup]

theorem OpcodeMap.lookup_byte {opc : OpcodeMap} (h : opc.Injective) (m : Mnemonic) :
    opc.lookup (opc.byte m) = some m := by
  cases hl : opc.lookup (opc.byte m) with
  | none => exact absurd rfl (OpcodeMap.lookup_eq_none.1 hl m (Mnemonic.mem_all m))
  | some n => rw [h n (Mnemonic.mem_all n) m (Mnemonic.mem_all m) (OpcodeMap.byte_of_lookup hl)]

/-- Everything a successful decoding can answer: the opcode byte's row, and exactly its operand bytes taken. -/
theorem decode_eq_ok {opc : OpcodeMap} {bytes rest : List Byte} {i : Instr} (h : decode opc bytes = .ok (i, rest)) :
    ∃ b, opc.lookup b = some i.mnemonic ∧ bytes = b :: (i.operands ++ rest) := by
  cases bytes with
  | nil => cases h
  | cons b tail =>
    simp only [decode] at h
    split at h
    · cases h
    · rename_i m hm
      refine ⟨b, ?_⟩
      cases m <;> simp only [Mnemonic.operandBytes] at h <;> (try split at h) <;> cases h <;>
        exact ⟨hm, rfl⟩

/-- Everything a failed decoding can answer: the row is missing, or a byte the row needs. -/
theorem decode_eq_error {opc : OpcodeMap} {bytes : List Byte} {e : DecodeError} (h : decode opc bytes = .error e) :
    (bytes = [] ∧ e = .missingByte 0) ∨
      ∃ b tail, bytes = b :: tail ∧
        ((opc.lookup b = none ∧ e = .unknownOpcode b) ∨
          ∃ m, opc.lookup b = some m ∧ tail.length < m.operandBytes ∧ e = .missingByte (1 + tail.length)) := by
  cases bytes with
  | nil => exact .inl ⟨rfl, (Except.error.inj h).symm⟩
  | cons b tail =>
    refine .inr ⟨b, tail, rfl, ?_⟩
    simp only [decode] at h
    split at h
    · exact .inl ⟨‹_›, (Except.error.inj h).symm⟩
    · rename_i m hm
      refine .inr ⟨m, hm, ?_⟩
      cases m <;> simp only [Mnemonic.operandBytes] at h ⊢ <;> (try split at h) <;> cases h <;>
        exact ⟨by simp, rfl⟩

theorem OpcodeMap.default_injective : OpcodeMap.default.Injective := by
  decide

end Sys2Proof
end

