-- ==== Sys2Proof/Laws/Memory.lean ====
section
/-! SUPPORT. The memory laws: read after write, every other address alone, and the canonical form kept. -/

namespace Sys2Proof.Machine

theorem Memory.wf_tail {c : Host.Cell} {m : Memory} (h : Memory.wf (c :: m)) : Memory.wf m :=
  ⟨(List.pairwise_cons.1 h.1).2, fun d hd => h.2 d (List.mem_cons_of_mem c hd)⟩

/-- In a canonical memory an address below the first entry has none. -/
theorem Memory.get_of_lt : ∀ {m : Memory} {a : Nat}, (∀ c ∈ m, a < c.1) → m.get a = Memory.unlisted
  | [], _, _ => rfl
  | (k, w) :: rest, a, h => by
    have hk : a < k := h (k, w) List.mem_cons_self
    rw [Memory.get, if_neg (by omega)]
    exact Memory.get_of_lt fun c hc => h c (List.mem_cons_of_mem _ hc)

theorem Memory.get_put_of_ne : ∀ (m : Memory) {a b : Nat} (v : Byte), b ≠ a → (m.put a v).get b = m.get b
  | [], a, b, v, h => by
    unfold Memory.put
    split <;> simp [Memory.get, h.symm]
  | (k, w) :: rest, a, b, v, h => by
    have ih := Memory.get_put_of_ne rest v h
    unfold Memory.put
    split
    · split
      · rfl
      · rw [Memory.get, if_neg h.symm]
    · split
      · rename_i hk
        subst hk
        split <;> simp [Memory.get, h.symm]
      · simp [Memory.get, ih]

theorem Memory.get_put_self : ∀ {m : Memory} (a : Nat) (v : Byte), m.wf → (m.put a v).get a = v
  | [], a, v, _ => by
    unfold Memory.put
    split <;> simp_all [Memory.get]
  | (k, w) :: rest, a, v, h => by
    have hlt : ∀ c ∈ rest, k < c.1 := (List.pairwise_cons.1 h.1).1
    have ih := Memory.get_put_self a v (Memory.wf_tail h)
    unfold Memory.put
    split
    · rename_i hak
      split
      · rename_i hv
        rw [hv]
        exact Memory.get_of_lt (by
          intro c hc
          rcases List.mem_cons.1 hc with rfl | hc
          · exact hak
          · have := hlt c hc; omega)
      · simp [Memory.get]
    · split
      · rename_i hak
        subst hak
        split
        · rename_i hv
          rw [hv]
          exact Memory.get_of_lt hlt
        · simp [Memory.get]
      · rename_i hne
        simp [Memory.get, Ne.symm hne, ih]

/-- Every entry after a write is an old one or the written one. -/
theorem Memory.mem_put : ∀ (m : Memory) {a : Nat} {v : Byte} {c : Host.Cell},
    c ∈ m.put a v → c ∈ m ∨ (c = (a, v) ∧ v ≠ Memory.unlisted)
  | [], a, v, c, h => by
    unfold Memory.put at h
    split at h <;> simp_all
  | (k, w) :: rest, a, v, c, h => by
    unfold Memory.put at h
    split at h
    · split at h
      · exact .inl h
      · rename_i hv
        rcases List.mem_cons.1 h with rfl | h
        · exact .inr ⟨rfl, hv⟩
        · exact .inl h
    · split at h
      · split at h
        · exact .inl (List.mem_cons_of_mem _ h)
        · rename_i hv
          rcases List.mem_cons.1 h with rfl | h
          · exact .inr ⟨rfl, hv⟩
          · exact .inl (List.mem_cons_of_mem _ h)
      · rcases List.mem_cons.1 h with rfl | h
        · exact .inl List.mem_cons_self
        · rcases Memory.mem_put rest h with h | h
          · exact .inl (List.mem_cons_of_mem _ h)
          · exact .inr h

theorem Memory.put_pairwise : ∀ {m : Memory} (a : Nat) (v : Byte),
    m.Pairwise (fun c d => c.1 < d.1) → (m.put a v).Pairwise (fun c d => c.1 < d.1)
  | [], a, v, _ => by
    unfold Memory.put
    split <;> simp
  | (k, w) :: rest, a, v, h => by
    obtain ⟨hlt, hrest⟩ := List.pairwise_cons.1 h
    unfold Memory.put
    split
    · rename_i hak
      split
      · exact h
      · refine List.pairwise_cons.2 ⟨fun c hc => ?_, h⟩
        rcases List.mem_cons.1 hc with rfl | hc
        · exact hak
        · have := hlt c hc; simp only at *; omega
    · rename_i hak
      split
      · rename_i he
        subst he
        split
        · exact hrest
        · exact List.pairwise_cons.2 ⟨hlt, hrest⟩
      · rename_i hne
        refine List.pairwise_cons.2 ⟨fun c hc => ?_, Memory.put_pairwise a v hrest⟩
        rcases Memory.mem_put rest hc with hc | ⟨rfl, -⟩
        · exact hlt c hc
        · simp only; omega

/-- Every write inside the address space keeps the canonical form. -/
theorem Memory.put_wf {m : Memory} {a : Nat} (v : Byte) (ha : a ≤ 255) (h : m.wf) : (m.put a v).wf := by
  refine ⟨Memory.put_pairwise a v h.1, fun c hc => ?_⟩
  rcases Memory.mem_put m hc with hc | ⟨rfl, hv⟩
  · exact h.2 c hc
  · exact ⟨by simp only; omega, hv⟩

theorem memRead_ok {m : Memory} {a : Nat} (ha : a ≤ 255) : memRead m a = .ok (m.get a) :=
  if_pos ha

theorem memRead_error {m : Memory} {a : Nat} (ha : 255 < a) : memRead m a = .error ⟨.addressOutOfRange, a⟩ :=
  if_neg (by omega)

theorem memWrite_ok {m : Memory} {a : Nat} (v : Byte) (ha : a ≤ 255) : memWrite m a v = .ok (m.put a v) :=
  if_pos ha

theorem memWrite_error {m : Memory} {a : Nat} (v : Byte) (ha : 255 < a) :
    memWrite m a v = .error ⟨.addressOutOfRange, a⟩ :=
  if_neg (by omega)

theorem memRead_eq_ok {m : Memory} {a : Nat} {b : Byte} (h : memRead m a = .ok b) : a ≤ 255 ∧ m.get a = b := by
  unfold memRead at h
  split at h
  · exact ⟨‹_›, by simpa using h⟩
  · cases h

/-- A write keeps the canonical form, whatever it answers. -/
theorem memWrite_wf {m m' : Memory} {a : Nat} {v : Byte} (h : m.wf) (hw : memWrite m a v = .ok m') : m'.wf := by
  unfold memWrite at hw
  split at hw
  · rename_i ha
    rw [← Except.ok.inj hw]
    exact Memory.put_wf v ha h
  · cases hw

/-- So does storing a list of bytes. -/
theorem storeBytes_wf : ∀ {m : Memory} (a : Nat) (bytes : List Byte), m.wf → (storeBytes m a bytes).wf
  | _, _, [], h => h
  | m, a, b :: rest, h => by
    unfold storeBytes
    split
    · rename_i m' hw
      exact storeBytes_wf (a + 1) rest (memWrite_wf h hw)
    · exact h

/-- The empty memory of reset is canonical. -/
theorem Memory.nil_wf : Memory.wf [] :=
  ⟨List.Pairwise.nil, by simp⟩

theorem State.resetWith_mem_wf (c : Config) : (State.resetWith c).mem.wf :=
  Memory.nil_wf

theorem State.reset_mem_wf : State.reset.mem.wf :=
  Memory.nil_wf

end Sys2Proof.Machine
end

