-- ==== Sys2Proof/Laws/State.lean ====
section
/-! SUPPORT. One lemma per field per update of State, and what the register accessors give. -/

namespace Sys2Proof.Machine

variable (s : State)

@[simp] theorem State.setReg_cfg (i : Fin 8) (v : Byte) : (s.setReg i v).cfg = s.cfg := rfl
@[simp] theorem State.setReg_x (i : Fin 8) (v : Byte) : (s.setReg i v).x = s.x.set i v := rfl
@[simp] theorem State.setReg_pc (i : Fin 8) (v : Byte) : (s.setReg i v).pc = s.pc := rfl
@[simp] theorem State.setReg_fl (i : Fin 8) (v : Byte) : (s.setReg i v).fl = s.fl := rfl
@[simp] theorem State.setReg_sp (i : Fin 8) (v : Byte) : (s.setReg i v).sp = s.sp := rfl
@[simp] theorem State.setReg_run (i : Fin 8) (v : Byte) : (s.setReg i v).run = s.run := rfl
@[simp] theorem State.setReg_err (i : Fin 8) (v : Byte) : (s.setReg i v).err = s.err := rfl
@[simp] theorem State.setReg_out (i : Fin 8) (v : Byte) : (s.setReg i v).out = s.out := rfl
@[simp] theorem State.setReg_mem (i : Fin 8) (v : Byte) : (s.setReg i v).mem = s.mem := rfl

@[simp] theorem State.advance_cfg (n : Nat) : (s.advance n).cfg = s.cfg := rfl
@[simp] theorem State.advance_x (n : Nat) : (s.advance n).x = s.x := rfl
@[simp] theorem State.advance_pc (n : Nat) : (s.advance n).pc = s.pc + n := rfl
@[simp] theorem State.advance_fl (n : Nat) : (s.advance n).fl = s.fl := rfl
@[simp] theorem State.advance_sp (n : Nat) : (s.advance n).sp = s.sp := rfl
@[simp] theorem State.advance_run (n : Nat) : (s.advance n).run = s.run := rfl
@[simp] theorem State.advance_err (n : Nat) : (s.advance n).err = s.err := rfl
@[simp] theorem State.advance_out (n : Nat) : (s.advance n).out = s.out := rfl
@[simp] theorem State.advance_mem (n : Nat) : (s.advance n).mem = s.mem := rfl

@[simp] theorem State.jump_cfg (v : Byte) : (s.jump v).cfg = s.cfg := rfl
@[simp] theorem State.jump_x (v : Byte) : (s.jump v).x = s.x := rfl
@[simp] theorem State.jump_pc (v : Byte) : (s.jump v).pc = v.toNat := rfl
@[simp] theorem State.jump_fl (v : Byte) : (s.jump v).fl = s.fl := rfl
@[simp] theorem State.jump_sp (v : Byte) : (s.jump v).sp = s.sp := rfl
@[simp] theorem State.jump_run (v : Byte) : (s.jump v).run = s.run := rfl
@[simp] theorem State.jump_err (v : Byte) : (s.jump v).err = s.err := rfl
@[simp] theorem State.jump_out (v : Byte) : (s.jump v).out = s.out := rfl
@[simp] theorem State.jump_mem (v : Byte) : (s.jump v).mem = s.mem := rfl

@[simp] theorem State.emit_cfg (v : Byte) : (s.emit v).cfg = s.cfg := rfl
@[simp] theorem State.emit_x (v : Byte) : (s.emit v).x = s.x := rfl
@[simp] theorem State.emit_pc (v : Byte) : (s.emit v).pc = s.pc := rfl
@[simp] theorem State.emit_fl (v : Byte) : (s.emit v).fl = s.fl := rfl
@[simp] theorem State.emit_sp (v : Byte) : (s.emit v).sp = s.sp := rfl
@[simp] theorem State.emit_run (v : Byte) : (s.emit v).run = s.run := rfl
@[simp] theorem State.emit_err (v : Byte) : (s.emit v).err = s.err := rfl
@[simp] theorem State.emit_out (v : Byte) : (s.emit v).out = s.out ++ [v] := rfl
@[simp] theorem State.emit_mem (v : Byte) : (s.emit v).mem = s.mem := rfl

@[simp] theorem State.raise_cfg (e : ErrorRecord) : (s.raise e).cfg = s.cfg := rfl
@[simp] theorem State.raise_x (e : ErrorRecord) : (s.raise e).x = s.x := rfl
@[simp] theorem State.raise_pc (e : ErrorRecord) : (s.raise e).pc = s.pc := rfl
@[simp] theorem State.raise_fl (e : ErrorRecord) : (s.raise e).fl = s.fl := rfl
@[simp] theorem State.raise_sp (e : ErrorRecord) : (s.raise e).sp = s.sp := rfl
@[simp] theorem State.raise_run (e : ErrorRecord) : (s.raise e).run = .halted := rfl
@[simp] theorem State.raise_err (e : ErrorRecord) : (s.raise e).err = some e := rfl
@[simp] theorem State.raise_out (e : ErrorRecord) : (s.raise e).out = s.out := rfl
@[simp] theorem State.raise_mem (e : ErrorRecord) : (s.raise e).mem = s.mem := rfl

@[simp] theorem State.reg_setReg (i j : Fin 8) (v : Byte) :
    (s.setReg i v).reg j = if j = i then v else s.reg j := by
  simp only [State.reg, State.setReg, Fin.getElem_fin, Vector.getElem_set, Fin.ext_iff]
  exact if_congr eq_comm rfl rfl

theorem State.reg_congr {s t : State} (h : t.x = s.x) (j : Fin 8) : t.reg j = s.reg j := by
  simp [State.reg, h]

theorem State.read_congr {s t : State} (h : t.mem = s.mem) (a : Nat) : t.read a = s.read a := by
  simp [State.read, h]

theorem State.raise_eq_raised (k : ErrorKind) (n : Nat) : s.raise ⟨k, n⟩ = Raised s k n := rfl

end Sys2Proof.Machine
end

