-- ==== Sys2Proof/Laws/Ops.lean ====
section
/-! SUPPORT. One lemma per shared operation, saying everything it can answer. -/

namespace Sys2Proof.Machine

@[simp] theorem except_ok_bind {ε α β : Type} (a : α) (f : α → Except ε β) : (Except.ok a >>= f) = f a := rfl

@[simp] theorem except_error_bind {ε α β : Type} (e : ε) (f : α → Except ε β) :
    ((Except.error e : Except ε α) >>= f) = .error e := rfl

/-- A completed bind completed both its parts. -/
theorem bind_eq_ok {ε α β : Type} {x : Except ε α} {f : α → Except ε β} {b : β} (h : x >>= f = .ok b) :
    ∃ a, x = .ok a ∧ f a = .ok b := by
  cases x with
  | error e => cases h
  | ok a => exact ⟨a, rfl, h⟩

/-- A failed bind failed in its first part or in its second. -/
theorem bind_eq_error {ε α β : Type} {x : Except ε α} {f : α → Except ε β} {e : ε} (h : x >>= f = .error e) :
    x = .error e ∨ ∃ a, x = .ok a ∧ f a = .error e := by
  cases x with
  | error e' => exact .inl (congrArg _ (Except.error.inj h))
  | ok a => exact .inr ⟨a, rfl, h⟩

@[simp] theorem conclude_ok (s t : State) : conclude s (.ok t) = .next t := rfl

@[simp] theorem conclude_error (s : State) (e : ErrorRecord) : conclude s (.error e) = .next (s.raise e) := rfl

/-- `conclude` completes with the computed state, or raises on the first one (rule R67). -/
theorem conclude_next {s t : State} {r : Except ErrorRecord State} (h : conclude s r = .next t) :
    r = .ok t ∨ ∃ e, r = .error e ∧ t = s.raise e := by
  cases r with
  | ok u => exact .inl (congrArg _ (Host.Outcome.next.inj h))
  | error e => exact .inr ⟨e, rfl, (Host.Outcome.next.inj h).symm⟩

/-- It always answers a next state. -/
theorem conclude_exists_next (s : State) (r : Except ErrorRecord State) : ∃ t, conclude s r = .next t := by
  cases r <;> exact ⟨_, rfl⟩

@[simp] theorem regByte_toNat (i : Fin 8) : (regByte i).toNat = i.val := by
  simp only [regByte, BitVec.toNat_ofNat]
  omega

/-- A byte that names a register is at most 7 (rule R47). -/
theorem regByte_le (i : Fin 8) : regByte i ≤ 7 := by
  rw [BitVec.le_def, regByte_toNat]
  exact Nat.le_of_lt_succ i.isLt

@[simp] theorem regIndex_regByte (i : Fin 8) : regIndex (regByte i) = .ok i := by
  simp [regIndex]

/-- An operand byte above 7 names no register (rule R64). -/
theorem regIndex_error {b : Byte} (h : 7 < b) : regIndex b = .error ⟨.invalidRegister, b.toNat⟩ := by
  have : 7 < b.toNat := h
  simp only [regIndex]
  rw [dif_neg (by omega)]

theorem regIndex_eq_ok {b : Byte} {i : Fin 8} (h : regIndex b = .ok i) : b = regByte i := by
  unfold regIndex at h
  split at h
  · rw [← Except.ok.inj h]
    simp [regByte]
  · cases h

theorem regIndex_eq_error {b : Byte} {e : ErrorRecord} (h : regIndex b = .error e) :
    7 < b ∧ e = ⟨.invalidRegister, b.toNat⟩ := by
  unfold regIndex at h
  split at h
  · cases h
  · rename_i hb
    exact ⟨show 7 < b.toNat by omega, (Except.error.inj h).symm⟩

theorem checkPush_ok {s : State} (h : s.cfg.stackLow < s.sp) : checkPush s = .ok () :=
  if_neg (BitVec.not_le.2 h)

theorem checkPush_error {s : State} (h : s.sp ≤ s.cfg.stackLow) :
    checkPush s = .error ⟨.stackOverflow, s.sp.toNat⟩ :=
  if_pos h

theorem checkPush_eq_ok {s : State} (h : checkPush s = .ok ()) : s.cfg.stackLow < s.sp := by
  unfold checkPush at h
  split at h
  · cases h
  · exact BitVec.not_le.1 ‹_›

theorem checkPush_eq_error {s : State} {e : ErrorRecord} (h : checkPush s = .error e) :
    s.sp ≤ s.cfg.stackLow ∧ e = ⟨.stackOverflow, s.sp.toNat⟩ := by
  unfold checkPush at h
  split at h
  · exact ⟨‹_›, (Except.error.inj h).symm⟩
  · cases h

theorem checkPop_ok {s : State} (h : s.sp < s.cfg.spInit) : checkPop s = .ok () :=
  if_neg (BitVec.not_le.2 h)

theorem checkPop_error {s : State} (h : s.cfg.spInit ≤ s.sp) :
    checkPop s = .error ⟨.stackUnderflow, s.sp.toNat⟩ :=
  if_pos h

theorem checkPop_eq_ok {s : State} (h : checkPop s = .ok ()) : s.sp < s.cfg.spInit := by
  unfold checkPop at h
  split at h
  · cases h
  · exact BitVec.not_le.1 ‹_›

theorem checkPop_eq_error {s : State} {e : ErrorRecord} (h : checkPop s = .error e) :
    s.cfg.spInit ≤ s.sp ∧ e = ⟨.stackUnderflow, s.sp.toNat⟩ := by
  unfold checkPop at h
  split at h
  · exact ⟨‹_›, (Except.error.inj h).symm⟩
  · cases h

theorem State.pushAddress_le (s : State) : s.pushAddress ≤ 255 := by
  have := (s.sp - 1).isLt
  unfold State.pushAddress
  omega

/-- The stack write cannot be out of range (rule R33): its address is a byte. -/
@[simp] theorem pushByte_eq (s : State) (v : Byte) :
    pushByte s v = .ok { s with sp := s.sp - 1, mem := s.mem.put s.pushAddress v } := by
  simp [pushByte, memWrite_ok v s.pushAddress_le]

/-- The stack read cannot be out of range (rule R33). -/
@[simp] theorem popByte_eq (s : State) : popByte s = .ok (s.mem.get s.sp.toNat, { s with sp := s.sp + 1 }) := by
  have h : s.sp.toNat ≤ 255 := by have := s.sp.isLt; omega
  simp [popByte, memRead_ok h]

/-- Above the low-water mark the push address is one below `sp`. -/
theorem State.pushAddress_succ {s : State} (h : s.cfg.stackLow < s.sp) : s.pushAddress + 1 = s.sp.toNat := by
  have : s.cfg.stackLow.toNat < s.sp.toNat := h
  have := s.sp.isLt
  have h1 : (1 : Byte).toNat = 1 := rfl
  simp only [State.pushAddress, BitVec.toNat_sub, h1]
  omega

end Sys2Proof.Machine
end

