-- ==== Sys2Proof/Laws/Exec.lean ====
section
/-! SUPPORT. One inversion lemma per instruction: it raised a named error on the state it began with, or it had exactly
the effect of its rule. -/

namespace Sys2Proof.Machine

/-- The error a bad register operand raises (rule R64). -/
abbrev BadRegister (b : Byte) (e : ErrorRecord) : Prop :=
  7 < b ∧ e = ⟨.invalidRegister, b.toNat⟩

/-- The error a push on a full stack raises (rule R95). -/
abbrev FullStack (s : State) (e : ErrorRecord) : Prop :=
  s.sp ≤ s.cfg.stackLow ∧ e = ⟨.stackOverflow, s.sp.toNat⟩

/-- The error a pop from the empty stack raises (rule R96). -/
abbrev EmptyStack (s : State) (e : ErrorRecord) : Prop :=
  s.cfg.spInit ≤ s.sp ∧ e = ⟨.stackUnderflow, s.sp.toNat⟩

/-- The error a CALL with room on the stack raises when `pc + 2` is no address (rule R81, D9). -/
abbrev NoReturnAddress (s : State) (e : ErrorRecord) : Prop :=
  s.cfg.stackLow < s.sp ∧ 255 < s.pc + 2 ∧ e = ⟨.addressOutOfRange, s.pc + 2⟩

variable {s t : State}

/-- What an instruction with one register operand answers: the index is good and the rest decides, or it is bad. -/
theorem conclude_regIndex {r : Byte} {f : Fin 8 → Except ErrorRecord State}
    (h : conclude s (regIndex r >>= f) = .next t) :
    (∃ i, r = regByte i ∧ conclude s (f i) = .next t) ∨ ∃ e, BadRegister r e ∧ t = s.raise e := by
  cases hr : regIndex r with
  | ok i => exact .inl ⟨i, regIndex_eq_ok hr, by simpa [hr] using h⟩
  | error e => exact .inr ⟨e, regIndex_eq_error hr, by simpa [hr] using h.symm⟩

/-- What the overflow check leaves. -/
theorem conclude_checkPush {f : Unit → Except ErrorRecord State} (h : conclude s (checkPush s >>= f) = .next t) :
    (s.cfg.stackLow < s.sp ∧ conclude s (f ()) = .next t) ∨ ∃ e, FullStack s e ∧ t = s.raise e := by
  cases hr : checkPush s with
  | ok i => exact .inl ⟨checkPush_eq_ok hr, by simpa [hr] using h⟩
  | error e => exact .inr ⟨e, checkPush_eq_error hr, by simpa [hr] using h.symm⟩

/-- What the underflow check leaves. -/
theorem conclude_checkPop {f : Unit → Except ErrorRecord State} (h : conclude s (checkPop s >>= f) = .next t) :
    (s.sp < s.cfg.spInit ∧ conclude s (f ()) = .next t) ∨ ∃ e, EmptyStack s e ∧ t = s.raise e := by
  cases hr : checkPop s with
  | ok i => exact .inl ⟨checkPop_eq_ok hr, by simpa [hr] using h⟩
  | error e => exact .inr ⟨e, checkPop_eq_error hr, by simpa [hr] using h.symm⟩

theorem execLdi_cases {r imm : Byte} (h : execLdi r imm s = .next t) :
    (∃ i, r = regByte i ∧ t = (s.setReg i imm).advance 3) ∨ ∃ e, BadRegister r e ∧ t = s.raise e := by
  rcases conclude_regIndex h with ⟨i, hi, h⟩ | h
  · exact .inl ⟨i, hi, (Host.Outcome.next.inj h).symm⟩
  · exact .inr h

theorem execPrn_cases {r : Byte} (h : execPrn r s = .next t) :
    (∃ i, r = regByte i ∧ t = (s.emit (s.reg i)).advance 2) ∨ ∃ e, BadRegister r e ∧ t = s.raise e := by
  rcases conclude_regIndex h with ⟨i, hi, h⟩ | h
  · exact .inl ⟨i, hi, (Host.Outcome.next.inj h).symm⟩
  · exact .inr h

/-- What the three ALU instructions share: good indices and the ALU's answer, or the first bad index raised. -/
theorem execAlu_cases {op : AluOp} {a b : Byte} (h : execAlu op a b s = .next t) :
    (∃ i j, a = regByte i ∧ b = regByte j ∧ conclude s (aluApply op i j s >>= fun u => .ok (u.advance 3)) = .next t) ∨
      ∃ e, (BadRegister a e ∨ a ≤ 7 ∧ BadRegister b e) ∧ t = s.raise e := by
  rcases conclude_regIndex h with ⟨i, hi, h⟩ | ⟨e, he, ht⟩
  · rcases conclude_regIndex h with ⟨j, hj, h⟩ | ⟨e, he, ht⟩
    · exact .inl ⟨i, j, hi, hj, h⟩
    · exact .inr ⟨e, .inr ⟨hi ▸ regByte_le i, he⟩, ht⟩
  · exact .inr ⟨e, .inl he, ht⟩

theorem execMul_cases {a b : Byte} (h : execMul a b s = .next t) :
    (∃ i j, a = regByte i ∧ b = regByte j ∧ t = (s.setReg i (mulBytes (s.reg i) (s.reg j))).advance 3) ∨
      ∃ e, (BadRegister a e ∨ a ≤ 7 ∧ BadRegister b e) ∧ t = s.raise e := by
  rcases execAlu_cases h with ⟨i, j, hi, hj, h⟩ | h
  · exact .inl ⟨i, j, hi, hj, (Host.Outcome.next.inj h).symm⟩
  · exact .inr h

theorem execAdd_cases {a b : Byte} (h : execAdd a b s = .next t) :
    (∃ i j, a = regByte i ∧ b = regByte j ∧ t = (s.setReg i (addBytes (s.reg i) (s.reg j))).advance 3) ∨
      ∃ e, (BadRegister a e ∨ a ≤ 7 ∧ BadRegister b e) ∧ t = s.raise e := by
  rcases execAlu_cases h with ⟨i, j, hi, hj, h⟩ | h
  · exact .inl ⟨i, j, hi, hj, (Host.Outcome.next.inj h).symm⟩
  · exact .inr h

theorem execCmp_cases {a b : Byte} (h : execCmp a b s = .next t) :
    (∃ i j, a = regByte i ∧ b = regByte j ∧
        t = { s with fl := compareFlags (s.reg i) (s.reg j), pc := s.pc + 3 }) ∨
      ∃ e, (BadRegister a e ∨ a ≤ 7 ∧ BadRegister b e) ∧ t = s.raise e := by
  rcases execAlu_cases h with ⟨i, j, hi, hj, h⟩ | h
  · exact .inl ⟨i, j, hi, hj, (Host.Outcome.next.inj h).symm⟩
  · exact .inr h

theorem execPush_cases {r : Byte} (h : execPush r s = .next t) :
    (∃ i, r = regByte i ∧ s.cfg.stackLow < s.sp ∧
        t = { s with sp := s.sp - 1, mem := s.mem.put s.pushAddress (s.reg i), pc := s.pc + 2 }) ∨
      ∃ e, (BadRegister r e ∨ r ≤ 7 ∧ FullStack s e) ∧ t = s.raise e := by
  rcases conclude_regIndex h with ⟨i, hi, h⟩ | ⟨e, he, ht⟩
  · rcases conclude_checkPush h with ⟨hs, h⟩ | ⟨e, he, ht⟩
    · rw [pushByte_eq] at h
      exact .inl ⟨i, hi, hs, (Host.Outcome.next.inj h).symm⟩
    · exact .inr ⟨e, .inr ⟨hi ▸ regByte_le i, he⟩, ht⟩
  · exact .inr ⟨e, .inl he, ht⟩

theorem execPop_cases {r : Byte} (h : execPop r s = .next t) :
    (∃ i, r = regByte i ∧ s.sp < s.cfg.spInit ∧
        t = (({ s with sp := s.sp + 1 } : State).setReg i (s.mem.get s.sp.toNat)).advance 2) ∨
      ∃ e, (BadRegister r e ∨ r ≤ 7 ∧ EmptyStack s e) ∧ t = s.raise e := by
  rcases conclude_regIndex h with ⟨i, hi, h⟩ | ⟨e, he, ht⟩
  · rcases conclude_checkPop h with ⟨hs, h⟩ | ⟨e, he, ht⟩
    · rw [popByte_eq] at h
      exact .inl ⟨i, hi, hs, (Host.Outcome.next.inj h).symm⟩
    · exact .inr ⟨e, .inr ⟨hi ▸ regByte_le i, he⟩, ht⟩
  · exact .inr ⟨e, .inl he, ht⟩

theorem returnByte_ok {ret : Nat} (h : ret ≤ 255) : returnByte ret = .ok (BitVec.ofNat 8 ret) :=
  if_neg (by omega)

theorem returnByte_error {ret : Nat} (h : 255 < ret) : returnByte ret = .error ⟨.addressOutOfRange, ret⟩ :=
  if_pos h

theorem execCall_cases {r : Byte} (h : execCall r s = .next t) :
    (∃ i, r = regByte i ∧ s.cfg.stackLow < s.sp ∧ s.pc + 2 ≤ 255 ∧
        t = { s with
          sp := s.sp - 1, mem := s.mem.put s.pushAddress (BitVec.ofNat 8 (s.pc + 2)), pc := (s.reg i).toNat }) ∨
      ∃ e, (BadRegister r e ∨ r ≤ 7 ∧ (FullStack s e ∨ NoReturnAddress s e)) ∧ t = s.raise e := by
  rcases conclude_regIndex h with ⟨i, hi, h⟩ | ⟨e, he, ht⟩
  · rcases conclude_checkPush h with ⟨hs, h⟩ | ⟨e, he, ht⟩
    · by_cases hpc : s.pc + 2 ≤ 255
      · rw [returnByte_ok hpc, except_ok_bind, pushByte_eq] at h
        exact .inl ⟨i, hi, hs, hpc, (Host.Outcome.next.inj h).symm⟩
      · rw [returnByte_error (by omega)] at h
        exact .inr ⟨_, .inr ⟨hi ▸ regByte_le i, .inr ⟨hs, by omega, rfl⟩⟩, (Host.Outcome.next.inj h).symm⟩
    · exact .inr ⟨e, .inr ⟨hi ▸ regByte_le i, .inl he⟩, ht⟩
  · exact .inr ⟨e, .inl he, ht⟩

theorem execRet_cases (h : execRet s = .next t) :
    (s.sp < s.cfg.spInit ∧ t = ({ s with sp := s.sp + 1 } : State).jump (s.mem.get s.sp.toNat)) ∨
      ∃ e, EmptyStack s e ∧ t = s.raise e := by
  rcases conclude_checkPop h with ⟨hs, h⟩ | h
  · rw [popByte_eq] at h
    exact .inl ⟨hs, (Host.Outcome.next.inj h).symm⟩
  · exact .inr h

theorem execJmp_cases {r : Byte} (h : execJmp r s = .next t) :
    (∃ i, r = regByte i ∧ t = s.jump (s.reg i)) ∨ ∃ e, BadRegister r e ∧ t = s.raise e := by
  rcases conclude_regIndex h with ⟨i, hi, h⟩ | h
  · exact .inl ⟨i, hi, (Host.Outcome.next.inj h).symm⟩
  · exact .inr h

theorem execJeq_cases {r : Byte} (h : execJeq r s = .next t) :
    (∃ i, r = regByte i ∧ t = if s.equal then s.jump (s.reg i) else s.advance 2) ∨
      ∃ e, BadRegister r e ∧ t = s.raise e := by
  rcases conclude_regIndex h with ⟨i, hi, h⟩ | h
  · exact .inl ⟨i, hi, (Host.Outcome.next.inj h).symm⟩
  · exact .inr h

theorem execJne_cases {r : Byte} (h : execJne r s = .next t) :
    (∃ i, r = regByte i ∧ t = if s.equal then s.advance 2 else s.jump (s.reg i)) ∨
      ∃ e, BadRegister r e ∧ t = s.raise e := by
  rcases conclude_regIndex h with ⟨i, hi, h⟩ | h
  · exact .inl ⟨i, hi, (Host.Outcome.next.inj h).symm⟩
  · exact .inr h

theorem execHlt_eq (s : State) : execHlt s = .next { s with pc := s.pc + 1, run := .halted } := rfl

/-- The first bad register operand in operand order, and the error it raises (rules R64 and R92). -/
def FirstBadRegister (i : Instr) (e : ErrorRecord) : Prop :=
  ∃ b, i.regOperands.find? (fun r => decide (7 < r)) = some b ∧ e = ⟨.invalidRegister, b.toNat⟩

theorem firstBadRegister_one {i : Instr} {r : Byte} {e : ErrorRecord} (hi : i.regOperands = [r]) (h : BadRegister r e) :
    FirstBadRegister i e :=
  ⟨r, by rw [hi, List.find?_cons_of_pos (by exact decide_eq_true h.1)], h.2⟩

theorem firstBadRegister_two {i : Instr} {a b : Byte} {e : ErrorRecord} (hi : i.regOperands = [a, b])
    (h : BadRegister a e ∨ a ≤ 7 ∧ BadRegister b e) : FirstBadRegister i e := by
  rcases h with h | ⟨ha, h⟩
  · exact ⟨a, by rw [hi, List.find?_cons_of_pos (by exact decide_eq_true h.1)], h.2⟩
  · refine ⟨b, ?_, h.2⟩
    rw [hi, List.find?_cons_of_neg (by simpa using ha), List.find?_cons_of_pos (by exact decide_eq_true h.1)]

theorem wf_of_regOperands_eq {i : Instr} {r : Byte} (hi : i.regOperands = [r]) (h : r ≤ 7) : i.wf = true := by
  simpa [Instr.wf, hi] using h

/-- The errors an instruction can raise once its bytes are fetched, in rule R100's order (entries 5 to 8): the ones of its
own rule only behind good register operands. -/
def ExecError (i : Instr) (s : State) (e : ErrorRecord) : Prop :=
  FirstBadRegister i e ∨
    i.wf = true ∧
      (i.mnemonic ∈ [Mnemonic.push, .call] ∧ FullStack s e ∨
        i.mnemonic ∈ [Mnemonic.pop, .ret] ∧ EmptyStack s e ∨
        i.mnemonic = .call ∧ NoReturnAddress s e)

/-- An instruction raises one of its errors on the state it began with, or it completes; completing writes no error, no
parameter, and the run state only if it is HLT. -/
theorem exec_cases {i : Instr} (h : exec i s = .next t) :
    (∃ e, ExecError i s e ∧ t = s.raise e) ∨
      (t.err = s.err ∧ t.cfg = s.cfg ∧ (t.run = s.run ∨ i = .hlt)) := by
  cases i
  case ldi =>
    rcases execLdi_cases h with ⟨i, -, rfl⟩ | ⟨e, he, ht⟩
    · exact .inr ⟨rfl, rfl, .inl rfl⟩
    · exact .inl ⟨e, .inl (firstBadRegister_one rfl he), ht⟩
  case prn =>
    rcases execPrn_cases h with ⟨i, -, rfl⟩ | ⟨e, he, ht⟩
    · exact .inr ⟨rfl, rfl, .inl rfl⟩
    · exact .inl ⟨e, .inl (firstBadRegister_one rfl he), ht⟩
  case mul =>
    rcases execMul_cases h with ⟨i, j, -, -, rfl⟩ | ⟨e, he, ht⟩
    · exact .inr ⟨rfl, rfl, .inl rfl⟩
    · exact .inl ⟨e, .inl (firstBadRegister_two rfl he), ht⟩
  case add =>
    rcases execAdd_cases h with ⟨i, j, -, -, rfl⟩ | ⟨e, he, ht⟩
    · exact .inr ⟨rfl, rfl, .inl rfl⟩
    · exact .inl ⟨e, .inl (firstBadRegister_two rfl he), ht⟩
  case cmp =>
    rcases execCmp_cases h with ⟨i, j, -, -, rfl⟩ | ⟨e, he, ht⟩
    · exact .inr ⟨rfl, rfl, .inl rfl⟩
    · exact .inl ⟨e, .inl (firstBadRegister_two rfl he), ht⟩
  case push =>
    rcases execPush_cases h with ⟨i, -, -, rfl⟩ | ⟨e, he | ⟨hr, he⟩, ht⟩
    · exact .inr ⟨rfl, rfl, .inl rfl⟩
    · exact .inl ⟨e, .inl (firstBadRegister_one rfl he), ht⟩
    · exact .inl ⟨e, .inr ⟨wf_of_regOperands_eq rfl hr, .inl ⟨by simp [Instr.mnemonic], he⟩⟩, ht⟩
  case pop =>
    rcases execPop_cases h with ⟨i, -, -, rfl⟩ | ⟨e, he | ⟨hr, he⟩, ht⟩
    · exact .inr ⟨rfl, rfl, .inl rfl⟩
    · exact .inl ⟨e, .inl (firstBadRegister_one rfl he), ht⟩
    · exact .inl ⟨e, .inr ⟨wf_of_regOperands_eq rfl hr, .inr (.inl ⟨by simp [Instr.mnemonic], he⟩)⟩, ht⟩
  case call =>
    rcases execCall_cases h with ⟨i, -, -, -, rfl⟩ | ⟨e, he | ⟨hr, he | he⟩, ht⟩
    · exact .inr ⟨rfl, rfl, .inl rfl⟩
    · exact .inl ⟨e, .inl (firstBadRegister_one rfl he), ht⟩
    · exact .inl ⟨e, .inr ⟨wf_of_regOperands_eq rfl hr, .inl ⟨by simp [Instr.mnemonic], he⟩⟩, ht⟩
    · exact .inl ⟨e, .inr ⟨wf_of_regOperands_eq rfl hr, .inr (.inr ⟨rfl, he⟩)⟩, ht⟩
  case ret =>
    rcases execRet_cases h with ⟨-, rfl⟩ | ⟨e, he, ht⟩
    · exact .inr ⟨rfl, rfl, .inl rfl⟩
    · exact .inl ⟨e, .inr ⟨rfl, .inr (.inl ⟨by simp [Instr.mnemonic], he⟩)⟩, ht⟩
  case jmp =>
    rcases execJmp_cases h with ⟨i, -, rfl⟩ | ⟨e, he, ht⟩
    · exact .inr ⟨rfl, rfl, .inl rfl⟩
    · exact .inl ⟨e, .inl (firstBadRegister_one rfl he), ht⟩
  case jeq =>
    rcases execJeq_cases h with ⟨i, -, rfl⟩ | ⟨e, he, ht⟩
    · split <;> exact .inr ⟨rfl, rfl, .inl rfl⟩
    · exact .inl ⟨e, .inl (firstBadRegister_one rfl he), ht⟩
  case jne =>
    rcases execJne_cases h with ⟨i, -, rfl⟩ | ⟨e, he, ht⟩
    · split <;> exact .inr ⟨rfl, rfl, .inl rfl⟩
    · exact .inl ⟨e, .inl (firstBadRegister_one rfl he), ht⟩
  case hlt =>
    rw [exec, execHlt_eq] at h
    cases h
    exact .inr ⟨rfl, rfl, .inr rfl⟩

end Sys2Proof.Machine
end

