-- ==== Sys2Proof/Laws/PerInstr.lean ====
section
/-! SUPPORT. Families of statements made for every instruction, one lemma per constructor. -/

namespace Sys2Proof.Laws.EncodeLength

/-- An instruction's bytes are as many as its row of the opcode map says (rules R45, R49 and R50). -/
def Statement (i : Instr) : Prop :=
  ∀ opc, (encode opc i).length = i.mnemonic.length

theorem ldi (r imm : Byte) : Statement (.ldi r imm) := fun _ => rfl
theorem prn (r : Byte) : Statement (.prn r) := fun _ => rfl
theorem mul (a b : Byte) : Statement (.mul a b) := fun _ => rfl
theorem add (a b : Byte) : Statement (.add a b) := fun _ => rfl
theorem cmp (a b : Byte) : Statement (.cmp a b) := fun _ => rfl
theorem push (r : Byte) : Statement (.push r) := fun _ => rfl
theorem pop (r : Byte) : Statement (.pop r) := fun _ => rfl
theorem call (r : Byte) : Statement (.call r) := fun _ => rfl
theorem ret : Statement .ret := fun _ => rfl
theorem jmp (r : Byte) : Statement (.jmp r) := fun _ => rfl
theorem jeq (r : Byte) : Statement (.jeq r) := fun _ => rfl
theorem jne (r : Byte) : Statement (.jne r) := fun _ => rfl
theorem hlt : Statement .hlt := fun _ => rfl

end Sys2Proof.Laws.EncodeLength
end

