-- ==== Sys2Proof/Laws/Step.lean ====
section
/-! SUPPORT. What fetching can answer, and the three cases of a step. -/

namespace Sys2Proof.Machine

variable {s t : State}

/-- The bytes at `pc` that exist, at the three places an instruction can end. -/
theorem codeBytes_three {m : Memory} {a : Nat} (h : a ≤ 253) :
    codeBytes m a 3 = [m.get a, m.get (a + 1), m.get (a + 2)] := by
  simp [codeBytes, memRead_ok (show a ≤ 255 by omega), memRead_ok (show a + 1 ≤ 255 by omega),
    memRead_ok (show a + 1 + 1 ≤ 255 by omega)]

theorem codeBytes_two {m : Memory} : codeBytes m 254 3 = [m.get 254, m.get 255] := rfl

theorem codeBytes_one {m : Memory} : codeBytes m 255 3 = [m.get 255] := rfl

theorem codeBytes_none {m : Memory} {a : Nat} (h : 255 < a) : codeBytes m a 3 = [] := by
  simp [codeBytes, memRead_error h]

/-- The first byte is the one at `pc`. -/
theorem codeBytes_cons {m : Memory} {a n : Nat} (h : a ≤ 255) :
    codeBytes m a (n + 1) = m.get a :: codeBytes m (a + 1) n := by
  simp [codeBytes, memRead_ok h]

/-- Fewer bytes than asked for: the first missing one is past 255. -/
theorem codeBytes_length_lt {m : Memory} : ∀ {n a : Nat}, (codeBytes m a n).length < n →
    255 < a + (codeBytes m a n).length
  | 0, _, h => absurd h (Nat.not_lt_zero _)
  | n + 1, a, h => by
    by_cases ha : a ≤ 255
    · rw [codeBytes_cons ha] at h ⊢
      simp only [List.length_cons] at h ⊢
      have := codeBytes_length_lt (m := m) (n := n) (a := a + 1) (by omega)
      omega
    · simp [codeBytes, memRead_error (show 255 < a by omega)]
      omega

/-- Every byte of `codeBytes`: the one in memory, up to address 255. -/
theorem codeBytes_getElem? {m : Memory} : ∀ {n a k : Nat}, k < n →
    (codeBytes m a n)[k]? = if a + k ≤ 255 then some (m.get (a + k)) else none
  | 0, _, _, h => absurd h (Nat.not_lt_zero _)
  | n + 1, a, k, h => by
    by_cases ha : a ≤ 255
    · rw [codeBytes_cons ha]
      cases k with
      | zero => simp [ha]
      | succ k =>
        rw [List.getElem?_cons_succ, codeBytes_getElem? (by omega), show a + 1 + k = a + (k + 1) by omega]
    · simp [codeBytes, memRead_error (show 255 < a by omega), show ¬ a + k ≤ 255 by omega]

theorem codeBytes_getElem?_lt {m : Memory} : ∀ {n a k : Nat} {b : Byte}, (codeBytes m a n)[k]? = some b → k < n
  | 0, _, _, _, h => by simp [codeBytes] at h
  | n + 1, a, k, b, h => by
    by_cases ha : a ≤ 255
    · rw [codeBytes_cons ha] at h
      cases k with
      | zero => omega
      | succ k =>
        have := codeBytes_getElem?_lt (List.getElem?_cons_succ ▸ h)
        omega
    · simp [codeBytes, memRead_error (show 255 < a by omega)] at h

/-- A byte of `codeBytes` is the read of its address. -/
theorem read_of_codeBytes {n k : Nat} {a : Nat} {b : Byte} (h : (codeBytes s.mem a n)[k]? = some b) :
    s.read (a + k) = .ok b := by
  rw [codeBytes_getElem? (codeBytes_getElem?_lt h)] at h
  split at h
  · rw [State.read, memRead_ok ‹_›, Option.some.inj h]
  · cases h

@[simp] theorem Instr.operands_length (i : Instr) : i.operands.length = i.mnemonic.operandBytes := by
  cases i <;> rfl

/-- Everything a successful fetch can answer: the row of the byte at `pc`, and its operand bytes in memory. -/
theorem fetchInstr_eq_ok {i : Instr} (h : fetchInstr s = .ok i) :
    (∃ b, s.read s.pc = .ok b ∧ s.cfg.opc.lookup b = some i.mnemonic) ∧ s.pc + i.mnemonic.length ≤ 256 ∧
      ∀ k b, i.operands[k]? = some b → s.read (s.pc + 1 + k) = .ok b := by
  unfold fetchInstr at h
  split at h
  · rename_i rest hd
    cases h
    obtain ⟨b, hl, hb⟩ := decode_eq_ok hd
    have hread : ∀ k c, (b :: (i.operands ++ rest))[k]? = some c → s.read (s.pc + k) = .ok c :=
      fun k c hc => read_of_codeBytes (hb ▸ hc)
    refine ⟨⟨b, by simpa using hread 0 b rfl, hl⟩, ?_, fun k c hc => ?_⟩
    · obtain ⟨c, hc⟩ : ∃ c, (b :: (i.operands ++ rest))[i.mnemonic.operandBytes]? = some c :=
        ⟨_, List.getElem?_eq_getElem (by simp [Instr.operands_length])⟩
      have := (memRead_eq_ok (hread _ c hc)).1
      simp only [Mnemonic.length]
      omega
    · have := hread (k + 1) c (by
        rw [List.getElem?_cons_succ, List.getElem?_append_left (List.getElem?_eq_some_iff.1 hc).1, hc])
      rwa [show s.pc + 1 + k = s.pc + (k + 1) by omega]
  · cases h

/-- Everything a failed fetch can answer, in the order of rule R100. -/
theorem fetchInstr_eq_error {e : ErrorRecord} (h : fetchInstr s = .error e) :
    (255 < s.pc ∧ e = ⟨.addressOutOfRange, s.pc⟩) ∨
      ∃ b, s.read s.pc = .ok b ∧
        ((s.cfg.opc.lookup b = none ∧ e = ⟨.unknownInstruction, b.toNat⟩) ∨
          ∃ m, s.cfg.opc.lookup b = some m ∧ 256 < s.pc + m.length ∧ e = ⟨.addressOutOfRange, 256⟩) := by
  unfold fetchInstr at h
  split at h
  · cases h
  · rename_i d hd
    rw [← Except.error.inj h]
    by_cases hpc : s.pc ≤ 255
    · refine .inr ?_
      rcases decode_eq_error hd with ⟨hb, -⟩ | ⟨b, tail, hb, hcase⟩
      · rw [codeBytes_cons hpc] at hb
        cases hb
      · have hread : ∀ k c, (b :: tail)[k]? = some c → s.read (s.pc + k) = .ok c :=
          fun k c hc => read_of_codeBytes (hb ▸ hc)
        refine ⟨b, by simpa using hread 0 b rfl, ?_⟩
        rcases hcase with ⟨hl, rfl⟩ | ⟨m, hl, hlen, rfl⟩
        · exact .inl ⟨hl, rfl⟩
        · have hops : m.operandBytes ≤ 2 := by cases m <;> decide
          have hlast := (memRead_eq_ok (hread tail.length _ (List.getElem?_eq_getElem (by simp)))).1
          have hfirst := codeBytes_length_lt (m := s.mem) (a := s.pc) (n := 3) (by rw [hb, List.length_cons]; omega)
          rw [hb, List.length_cons] at hfirst
          have he : s.pc + (1 + tail.length) = 256 := by omega
          refine .inr ⟨m, hl, ?_, by simp only [fetchError, he]⟩
          simp only [Mnemonic.length]
          omega
    · have hb : codeBytes s.mem s.pc 3 = [] := codeBytes_none (by omega)
      rw [hb] at hd
      cases hd
      exact .inl ⟨by omega, rfl⟩

theorem step_halted (h : s.run = .halted) : step s = .next s := by
  simp [step, h]

theorem step_of_fetch {i : Instr} (hr : s.run = .running) (h : fetchInstr s = .ok i) : step s = exec i s := by
  simp [step, hr, h]

theorem step_of_fetch_error {e : ErrorRecord} (hr : s.run = .running) (h : fetchInstr s = .error e) :
    step s = .next (s.raise e) := by
  simp [step, hr, h]

/-- The three cases of a step: halted and unchanged, an instruction executed, or a fetch error raised. -/
theorem step_cases (h : step s = .next t) :
    (s.run = .halted ∧ t = s) ∨
      (s.run = .running ∧ ∃ i, fetchInstr s = .ok i ∧ exec i s = .next t) ∨
      (s.run = .running ∧ ∃ e, fetchInstr s = .error e ∧ t = s.raise e) := by
  unfold step at h
  split at h
  · exact .inl ⟨‹_›, (Host.Outcome.next.inj h).symm⟩
  · split at h
    · exact .inr (.inl ⟨‹_›, _, ‹_›, h⟩)
    · exact .inr (.inr ⟨‹_›, _, ‹_›, (Host.Outcome.next.inj h).symm⟩)

/-- With an opcode of the table at `pc`, a step raises AddressOutOfRange(256) if the instruction's bytes pass 255, and else
executes an instruction of that row (rules R62 and R63). -/
theorem runningAt_cases {m : Mnemonic} (h : RunningAt s m) :
    (256 < s.pc + m.length ∧ step s = .next (Raised s .addressOutOfRange 256)) ∨
      (s.pc + m.length ≤ 256 ∧ ∃ i : Instr, i.mnemonic = m ∧ fetchInstr s = .ok i ∧ step s = exec i s) := by
  obtain ⟨hr, b, hb, hl⟩ := h
  cases hf : fetchInstr s with
  | ok i =>
    obtain ⟨⟨b', hb', hl'⟩, hlen, -⟩ := fetchInstr_eq_ok hf
    rw [hb] at hb'
    cases hb'
    rw [hl] at hl'
    cases hl'
    exact .inr ⟨hlen, i, rfl, rfl, step_of_fetch hr hf⟩
  | error e =>
    rcases fetchInstr_eq_error hf with ⟨h1, -⟩ | ⟨b', hb', h2⟩
    · have := (memRead_eq_ok hb).1
      omega
    · rw [hb] at hb'
      cases hb'
      rcases h2 with ⟨h2, -⟩ | ⟨m', hm, hlen, rfl⟩
      · rw [hl] at h2
        cases h2
      · rw [hl] at hm
        cases hm
        exact .inl ⟨hlen, step_of_fetch_error hr hf⟩

/-- A fetched instruction is the one whose bytes lie at `pc`. -/
theorem instrAt_of_fetch {i : Instr} (h : fetchInstr s = .ok i) : InstrAt s i :=
  ⟨(fetchInstr_eq_ok h).1, (fetchInstr_eq_ok h).2.2⟩

/-- Raising an error keeps the instruction at `pc`. -/
@[simp] theorem instrAt_raise {i : Instr} {e : ErrorRecord} : InstrAt (s.raise e) i ↔ InstrAt s i :=
  Iff.rfl

/-- A fetched instruction is of the row of the byte at `pc`. -/
theorem runningAt_of_fetch {i : Instr} (hr : s.run = .running) (h : fetchInstr s = .ok i) : RunningAt s i.mnemonic :=
  ⟨hr, (fetchInstr_eq_ok h).1⟩

end Sys2Proof.Machine
end

