-- ==== Sys2Proof/Tests/Slice0.lean ====
section
/-! SUPPORT. Tests. Expected results are the spec's own vectors (spec/95_test_vectors.md, named V<n>), or the tables of its
rules; bytes are written with the default `OPC`. Then, for every statement with hypotheses, a witness that meets them. -/

namespace Sys2Proof.Tests

open Sys2Proof.Machine

/-- The start state of a single-step vector: reset with bytes at an address and `pc` there. -/
def start (pc : Nat) (bytes : List Byte) : State :=
  { State.reset with pc := pc, mem := storeBytes [] pc bytes }

/-- The same with one register set. -/
def startReg (pc : Nat) (bytes : List Byte) (i : Fin 8) (v : Byte) : State :=
  (start pc bytes).setReg i v

/-- The next state of an outcome, to read fields from. -/
def nextOf : Host.Outcome State Fault Refusal → Option State
  | .next t => some t
  | _ => none

/-- What one step leaves, as the fields asked for. -/
def after {α : Type} (s : State) (f : State → α) : Option α :=
  (nextOf (step s)).map f

/-! ### Well-formedness: the one check refuses an index above 7 in every register position -/

theorem test_wf_bounds : (Instr.ldi 7 255).wf = true ∧ (Instr.ldi 8 0).wf = false := by decide
theorem test_wf_second_operand : (Instr.add 7 7).wf = true ∧ (Instr.add 0 8).wf = false ∧ (Instr.cmp 8 0).wf = false := by
  decide
theorem test_wf_whole_byte : (Instr.jmp 0x80).wf = false ∧ (Instr.push 0xFF).wf = false ∧ Instr.ret.wf = true := by decide

/-! ### Decoding: one word per constructor, written out from the table of rule R50 and the formats of rule R46 -/

theorem test_decode_ldi : decodeTableWord 24 0b11111111_00000111_10000010 = some (.ldi 7 255) := by decide
theorem test_decode_prn : decodeTableWord 16 0b00000111_01000111 = some (.prn 7) := by decide
theorem test_decode_mul : decodeTableWord 24 0b00000010_00000001_10100010 = some (.mul 1 2) := by decide
theorem test_decode_add : decodeTableWord 24 0b00000100_00000011_10100000 = some (.add 3 4) := by decide
theorem test_decode_cmp : decodeTableWord 24 0b00000110_00000101_10100111 = some (.cmp 5 6) := by decide
theorem test_decode_push : decodeTableWord 16 0b00000001_01000101 = some (.push 1) := by decide
theorem test_decode_pop : decodeTableWord 16 0b00000010_01000110 = some (.pop 2) := by decide
theorem test_decode_call : decodeTableWord 16 0b00000011_01010000 = some (.call 3) := by decide
theorem test_decode_ret : decodeTableWord 8 0b00010001 = some .ret := by decide
theorem test_decode_jmp : decodeTableWord 16 0b00000100_01010100 = some (.jmp 4) := by decide
theorem test_decode_jeq : decodeTableWord 16 0b00000101_01010101 = some (.jeq 5) := by decide
theorem test_decode_jne : decodeTableWord 16 0b00000110_01010110 = some (.jne 6) := by decide
theorem test_decode_hlt : decodeTableWord 8 0b00000001 = some .hlt := by decide
/-- Rules R52 and R53, N4: 0x00 (the LS-8's NOP) and 0xA1 (its SUB) are no instructions here. -/
theorem test_decode_unknown : decodeTableWord 8 0x00 = none ∧ decodeTableWord 24 0xA1 = none := by decide
/-- A table word that gives the operands no bits reads them as 0. -/
theorem test_decode_short_word : decodeTableWord 8 0x82 = some (.ldi 0 0) := by decide
theorem test_encode_order : encode OpcodeMap.default (.ldi 0 8) = [0x82, 0x00, 0x08] := by decide
/-- Rule R20's byte view `0b00000LGE`. -/
theorem test_flags_byte :
    flagsByte ⟨true, false, false⟩ = 1 ∧ flagsByte ⟨false, false, true⟩ = 2 ∧ flagsByte ⟨false, true, false⟩ = 4 := by
  decide

/-! ### One step: vectors of spec/95_test_vectors.md -/

theorem test_ldi_V2 : after (start 10 [0x82, 0x07, 0xFF]) (fun t => (t.reg 7, t.pc, t.sp)) = some (255, 13, 0xF4) := by
  decide
theorem test_ldi_V50 : step (start 254 [0x82, 0x09]) = .next (Raised (start 254 [0x82, 0x09]) .addressOutOfRange 256) := rfl
theorem test_prn_V7 : after (startReg 100 [0x47, 0x07] 7 255) (fun t => (t.out, t.pc)) = some ([255], 102) := by decide
theorem test_prn_V8 : after (start 0 [0x47, 0x08]) (fun t => (t.err, t.out)) = some (some ⟨.invalidRegister, 8⟩, []) := by
  decide
theorem test_mul_V15 : after (startReg 0 [0xA2, 0x03, 0x03] 3 200) (fun t => (t.reg 3, t.pc)) = some (64, 3) := by decide
theorem test_mul_V19 :
    after ((startReg 253 [0xA2, 0x00, 0x01] 0 3).setReg 1 5) (fun t => (t.reg 0, t.pc, t.run)) =
      some (15, 256, .running) := by decide
theorem test_add_V17 :
    after { (startReg 0 [0xA0, 0x00, 0x01] 0 255).setReg 1 1 with fl := ⟨false, true, false⟩ }
      (fun t => (t.reg 0, t.fl)) = some (0, ⟨false, true, false⟩) := by decide
theorem test_add_V18b : after (start 0 [0xA0, 0x09, 0xFF]) State.err = some (some ⟨.invalidRegister, 9⟩) := by decide
theorem test_cmp_V10_unsigned :
    after ((startReg 0 [0xA7, 0x00, 0x01] 0 200).setReg 1 100) (fun t => (t.fl, t.pc)) =
      some (⟨false, false, true⟩, 3) := by decide
theorem test_cmp_V16_clears_stale :
    after { startReg 0 [0xA7, 0x05, 0x05] 5 77 with fl := ⟨false, false, true⟩ } State.fl =
      some ⟨true, false, false⟩ := by decide
theorem test_push_V26 :
    after { startReg 20 [0x45, 0x01] 1 0x99 with sp := 1 } (fun t => (t.sp, t.mem.get 0, t.pc)) =
      some (0, 0x99, 22) := by decide
theorem test_push_V26b :
    after { startReg 20 [0x45, 0x01] 1 0x99 with sp := 0 } (fun t => (t.err, t.sp)) =
      some (some ⟨.stackOverflow, 0⟩, 0) := by decide
theorem test_pop_V27 :
    after { start 0 [0x46, 0x02] with sp := 0xF3, mem := storeBytes (start 0 [0x46, 0x02]).mem 0xF3 [7] }
      (fun t => (t.reg 2, t.sp, t.mem.get 0xF3)) = some (7, 0xF4, 7) := by decide
theorem test_pop_V22 : after (start 0 [0x46, 0x00]) State.err = some (some ⟨.stackUnderflow, 244⟩) := by decide
theorem test_call_V38c :
    after (startReg 253 [0x50, 0x00] 0 9) (fun t => (t.pc, t.sp, t.mem.get 0xF3)) = some (9, 0xF3, 255) := by decide
theorem test_call_V38b :
    after { start 254 [0x50, 0x00] with cfg := { Config.default with stackLow := 0xF4 } } State.err =
      some (some ⟨.stackOverflow, 244⟩) := by decide
theorem test_ret_V39f :
    after { start 255 [0x11] with sp := 0xF3 } (fun t => (t.pc, t.sp, t.err)) = some (0, 0xF4, none) := by decide
theorem test_ret_V31 :
    after { start 14 [0x11] with sp := 0xF3, mem := storeBytes (start 14 [0x11]).mem 0xF3 [8] }
      (fun t => (t.pc, t.sp)) = some (8, 0xF4) := by decide
theorem test_jmp_V39b : after (startReg 0 [0x54, 0x00] 0 255) (fun t => (t.pc, t.run)) = some (255, .running) := by decide
theorem test_jeq_V34b :
    after { startReg 12 [0x55, 0x02] 2 15 with fl := ⟨false, true, false⟩ } State.pc = some 14 ∧
    after { startReg 12 [0x55, 0x02] 2 15 with fl := ⟨true, false, false⟩ } State.pc = some 15 := by decide
theorem test_jeq_V36 :
    after { start 0 [0x55, 0x10] with fl := ⟨false, false, true⟩ } State.err = some (some ⟨.invalidRegister, 16⟩) := by
  decide
theorem test_jne_V35b :
    after { startReg 24 [0x56, 0x04] 4 15 with fl := ⟨true, false, false⟩ } State.pc = some 26 ∧
    after { startReg 24 [0x56, 0x04] 4 15 with fl := ⟨false, true, false⟩ } State.pc = some 15 := by decide
theorem test_hlt_V41 :
    after (start 255 [0x01]) (fun t => (t.pc, t.run, t.err, t.signal)) = some (256, .halted, none, some 0) := by decide
theorem test_halted_V40b :
    after { start 1 [0x01] with run := .halted } (fun t => (t.pc, t.run)) = some (1, .halted) := by decide
theorem test_fetch_V45 : after (start 256 []) State.err = some (some ⟨.addressOutOfRange, 256⟩) := by decide
theorem test_fetch_V51 : after (start 255 [0xFF]) State.err = some (some ⟨.unknownInstruction, 255⟩) := by decide
/-- Rules R92 and R95: a HLT explains no InvalidRegister, and an ADD at `sp` = `STACK_LOW` no StackOverflow. -/
theorem test_error_cause_needs_the_operand :
    ¬ ErrorExplained (Raised (start 0 [0x01]) .invalidRegister 99) ⟨.invalidRegister, 99⟩ := by
  rintro ⟨i, b, ⟨⟨c, hc, hm⟩, -⟩, hb, -⟩
  cases hc
  cases i <;> cases hm
  cases hb
theorem test_error_cause_needs_the_instruction :
    ¬ ErrorExplained (Raised { start 0 [0xA0, 0, 1] with sp := 0 } .stackOverflow 0) ⟨.stackOverflow, 0⟩ := by
  rintro ⟨i, ⟨⟨c, hc, hm⟩, -⟩, -, hi, -⟩
  cases hc
  cases i <;> cases hm
  simp [Instr.mnemonic] at hi
/-- The interface's word placement: at reset, and moved to 0 where the instruction would pass 255. -/
theorem test_withFetchWord :
    after (State.reset.withFetchWord 24 0x080382) (fun t => (t.reg 3, t.pc)) = some (8, 3) ∧
    after ((start 254 []).withFetchWord 24 0x080382) (fun t => (t.reg 3, t.pc)) = some (8, 3) := by decide

/-! ### Witnesses: for each statement with hypotheses, a state and operands that meet them together

`push0`, `pop0`: a PUSH and a POP about to run with room and with a byte on the stack. -/

/-- LDI R0,8 at 0. -/
def ldi0 : State := start 0 [0x82, 0x00, 0x08]
/-- PUSH R0 at 0 with `x[0]` = 42. -/
def push0 : State := startReg 0 [0x45, 0x00] 0 42
/-- POP R0 at 0 with 42 on the stack. -/
def pop0 : State := { start 0 [0x46, 0x00] with sp := 0xF3, mem := storeBytes (start 0 [0x46, 0x00]).mem 0xF3 [42] }
/-- An unknown opcode at 255, the highest address. -/
def unknown255 : State := start 255 [0xFF]

theorem witness_DecodeOfEncodeIsTheInstruction : OpcodeMap.default.Injective := by decide

theorem witness_EncodeOfDecodeIsTheBytes : decode OpcodeMap.default [0x82, 3, 9, 1] = .ok (.ldi 3 9, [1]) := rfl

theorem witness_IllegalOpcodeBytesAreUnknownInstructions :
    OpcodeMap.default.Injective ∧ unknown255.cfg.opc = OpcodeMap.default ∧ unknown255.run = .running ∧
      unknown255.read unknown255.pc = .ok 0xFF ∧ ∀ m ∈ Mnemonic.all, OpcodeMap.default.byte m ≠ 0xFF :=
  ⟨by decide, rfl, rfl, rfl, by decide⟩

theorem witness_ResetAndLoadedState : Config.default.wf ∧ (List.replicate 256 (1 : Byte)).length ≤ 256 ∧ 255 ≤ 255 :=
  ⟨by decide, (List.length_replicate ..).le, by decide⟩

theorem witness_LongImageIsRefused : Config.default.wf ∧ 256 < (List.replicate 257 (1 : Byte)).length :=
  ⟨by decide, by rw [List.length_replicate]; decide⟩

theorem witness_ResetMeetsInvariant : Config.default.wf ∧ unknown255.cfg.wf := by decide

/-- A running state that meets the invariant, and the step it takes. -/
theorem witness_StepKeepsInvariant : ldi0.Inv ∧ ∃ t, step ldi0 = .next t :=
  ⟨{ spLow := by decide, spHigh := by decide, pcRange := by decide, memory := by decide, flags := .inl rfl
     errHalted := fun h => absurd rfl h, errCause := fun _ h => nomatch h }, _, rfl⟩

/-- A halted state that meets it with an error recorded: the error of V45. -/
theorem witness_StepKeepsInvariant_error : (Raised (start 256 []) .addressOutOfRange 256).Inv :=
  { spLow := by decide, spHigh := by decide, pcRange := by decide, memory := by decide, flags := .inl rfl
    errHalted := fun _ => rfl, errCause := fun _ h => by cases h; exact ⟨rfl, .inl rfl⟩ }

theorem witness_StepRunsDecodedInstruction :
    ldi0.run = .running ∧ decode ldi0.cfg.opc (codeBytes ldi0.mem ldi0.pc 3) = .ok (.ldi 0 8, []) ∧
      (Instr.ldi 0 8).wf = true := ⟨rfl, rfl, rfl⟩

theorem witness_EncodedInstructionInMemoryRuns :
    (start 255 [0x11]).cfg.opc.Injective ∧ (start 255 [0x11]).run = .running ∧
      ∀ k b, (encode (start 255 [0x11]).cfg.opc .ret)[k]? = some b → (start 255 [0x11]).read (255 + k) = .ok b := by
  refine ⟨by decide, rfl, fun k b h => ?_⟩
  match k with
  | 0 => cases h; rfl
  | _ + 1 => cases h

theorem witness_OpcodeFetchAndDecodeErrors :
    (start 256 []).run = .running ∧ 255 < (start 256 []).pc ∧ unknown255.run = .running ∧
      unknown255.read unknown255.pc = .ok 0xFF ∧ unknown255.cfg.opc.lookup 0xFF = none :=
  ⟨rfl, by decide, rfl, rfl, rfl⟩

theorem witness_OperandFetchReadsExactlyTheOperands :
    (RunningAt (start 254 [0x82, 0x09]) .ldi ∧ 256 < (start 254 [0x82, 0x09]).pc + Mnemonic.ldi.length) ∧
      (RunningAt (start 253 [0x82, 0, 1]) .ldi ∧ (start 253 [0x82, 0, 1]).pc + Mnemonic.ldi.length ≤ 256) ∧
      RunningAt (start 255 [0x01]) .hlt ∧ (start 255 [0x01]).pc + Mnemonic.hlt.length ≤ 256 :=
  ⟨⟨⟨rfl, _, rfl, rfl⟩, by decide⟩, ⟨⟨rfl, _, rfl, rfl⟩, by decide⟩, ⟨rfl, _, rfl, rfl⟩, by decide⟩

theorem witness_FirstBadRegisterIsReported :
    (Instr.add 9 255).regOperands.find? (fun r => decide (7 < r)) = some 9 ∧
      (Instr.add 7 8).regOperands.find? (fun r => decide (7 < r)) = some 8 := by decide

theorem witness_ErrorEntryChangesOnlyRunAndErr :
    step unknown255 = .next (Raised unknown255 .unknownInstruction 255) ∧
      (Raised unknown255 .unknownInstruction 255).err ≠ unknown255.err := ⟨rfl, by decide⟩

theorem witness_RaisedErrorHasItsListedCause :
    (start 254 [0x50, 0x00]).pc ≤ 256 ∧ (start 254 [0x50, 0x00]).err = none ∧
      step (start 254 [0x50, 0x00]) = .next (Raised (start 254 [0x50, 0x00]) .addressOutOfRange 256) ∧
      (Raised (start 254 [0x50, 0x00]) .addressOutOfRange 256).err = some ⟨.addressOutOfRange, 256⟩ :=
  ⟨by decide, rfl, rfl, rfl⟩

theorem witness_UnsupportedOperationIsUnreachable :
    (∀ e, unknown255.err = some e → e.kind ≠ .unsupportedOperation) ∧
      step unknown255 = .next (Raised unknown255 .unknownInstruction 255) ∧
      (Raised unknown255 .unknownInstruction 255).err = some ⟨.unknownInstruction, 255⟩ :=
  ⟨fun _ h => (nomatch h), rfl, rfl⟩

theorem witness_HaltedIsForGood :
    (Raised unknown255 .unknownInstruction 255).run = .halted ∧
      State.reset.cfg = (Raised unknown255 .unknownInstruction 255).cfg := ⟨rfl, rfl⟩

theorem witness_HaltsOnlyByHltOrError :
    (start 255 [0x01]).run = .running ∧ (start 255 [0x01]).err = none ∧
      step (start 255 [0x01]) = .next { start 255 [0x01] with pc := 256, run := .halted } ∧
      ErrorKind.addressOutOfRange.code = ErrorKind.addressOutOfRange.code := ⟨rfl, rfl, rfl, rfl⟩

theorem witness_MemoryReadAndWriteContract : Memory.wf [(255, 1)] ∧ 255 ≤ 255 ∧ 255 < 256 := by decide

theorem witness_StackPointerStaysInItsLimits :
    push0.cfg.stackLow ≤ push0.sp ∧ push0.sp ≤ push0.cfg.spInit ∧ ∃ t, step push0 = .next t :=
  ⟨by decide, by decide, _, rfl⟩

theorem witness_PcNeverPasses256 : (start 256 []).pc ≤ 256 ∧ (start 256 []).pc = 256 ∧ ∃ t, step (start 256 []) = .next t :=
  ⟨by decide, rfl, _, rfl⟩

/-- CMP R0,R0 from the reset flags: they change, and the core is still Running. -/
theorem witness_OnlyCmpWritesFlags :
    ∃ t, step (start 0 [0xA7, 0, 0]) = .next t ∧ t.fl ≠ (start 0 [0xA7, 0, 0]).fl ∧
      RunningAt (start 0 [0xA7, 0, 0]) .cmp ∧ t.run = .running :=
  ⟨_, rfl, by decide, ⟨rfl, _, rfl, rfl⟩, rfl⟩

theorem witness_LessAndGreaterAreNeverRead : ∃ t, step (start 0 [0xA7, 0, 0]) = .next t := ⟨_, rfl⟩

theorem witness_OutputIsAppendedByPrnAndNeverRead : ∃ t, step (start 0 [0x47, 0]) = .next t ∧ t.out ≠ [] :=
  ⟨_, rfl, by decide⟩

theorem witness_OnlyPushAndCallWriteMemory :
    push0.sp ≤ push0.cfg.spInit ∧ ∃ t, step push0 = .next t ∧ t.read 0xF3 ≠ push0.read 0xF3 :=
  ⟨by decide, _, rfl, fun h => nomatch h⟩

theorem witness_OnlyStackInstructionsMoveSp :
    (∃ t, step push0 = .next t ∧ t.sp ≠ push0.sp) ∧ ∃ t, step pop0 = .next t ∧ t.sp ≠ pop0.sp :=
  ⟨⟨_, rfl, by decide⟩, _, rfl, by decide⟩

theorem witness_OnlyFourInstructionsWriteRegisters : ∃ t, step ldi0 = .next t ∧ t.reg 0 ≠ ldi0.reg 0 :=
  ⟨_, rfl, by decide⟩

theorem witness_ParametersNeverChange : ∃ t, Host.Core.run core 1 ldi0 = .next t := ⟨_, rfl⟩

theorem witness_PcAdvancesByLengthOrTransfers :
    ldi0.err = none ∧ ∃ t, exec (.ldi 0 8) ldi0 = .next t ∧ t.err = none := ⟨rfl, _, rfl, rfl⟩

theorem witness_CompareSwappedSwapsLessAndGreater : push0.reg 0 ≠ push0.reg 1 := by decide

/-- The empty stack and the last free byte of it. -/
theorem witness_PushThenPopRoundTrip :
    (push0.mem.wf ∧ push0.cfg.stackLow < push0.sp ∧ push0.sp ≤ push0.cfg.spInit) ∧
      ∀ s : State, s = { push0 with sp := 1 } → s.mem.wf ∧ s.cfg.stackLow < s.sp ∧ s.sp ≤ s.cfg.spInit :=
  ⟨by decide, by rintro s rfl; decide⟩

/-- CALL at 253, the highest that works, and a balanced state in between (the one right after it). -/
theorem witness_CallThenReturnResumes :
    ∀ s : State, s = startReg 253 [0x50, 0] 0 9 →
      s.mem.wf ∧ s.cfg.stackLow < s.sp ∧ s.sp ≤ s.cfg.spInit ∧ s.pc + 2 ≤ 255 ∧
        ∃ t v : State, exec (.call 0) s = .next t ∧ v.cfg = t.cfg ∧ v.sp = t.sp ∧
          v.read t.sp.toNat = t.read t.sp.toNat := by
  rintro s rfl
  exact ⟨by decide, by decide, by decide, by decide, _, _, rfl, rfl, rfl, rfl⟩

/-- A stack with one byte, room below it, and the empty stack at its limit. -/
theorem witness_StackIsLastInFirstOut :
    (pop0.mem.wf ∧ pop0.cfg.stackLow ≤ pop0.sp ∧ pop0.sp ≤ pop0.cfg.spInit ∧ pop0.cfg.stackLow < pop0.sp ∧
      pop0.pc + 2 ≤ 255 ∧ pop0.stackBytes = [42]) ∧
    (Instr.jmp 0).mnemonic ∉ [Mnemonic.push, .call, .pop, .ret] ∧ (∃ t, exec (.jmp 0) pop0 = .next t) ∧
    push0.stackBytes = [] :=
  ⟨by decide, by decide, ⟨_, rfl⟩, by decide⟩

/-- `sp` = 4 and PUSH at 0: the byte lands on address 3, the second byte of the instruction at 2. -/
theorem witness_StoredByteIsFetchedAtOnce :
    ∀ s : State, s = { push0 with sp := 4 } →
      s.mem.wf ∧ s.cfg.stackLow < s.sp ∧ 1 < 3 ∧ s.pc + 2 ≤ 255 ∧
        (∃ t, exec (.push 0) s = .next t ∧ t.pc + 1 = s.pushAddress) ∧
        ∃ t, exec (.call 0) (s.setReg 0 2) = .next t ∧ t.pc + 1 = (s.setReg 0 2).pushAddress := by
  rintro s rfl
  exact ⟨by decide, by decide, by decide, by decide, ⟨_, rfl, by decide⟩, _, rfl, by decide⟩

theorem witness_LdiLoadsTheImmediate :
    RunningAt (start 254 [0x82, 0]) .ldi ∧ 254 ≤ (start 254 [0x82, 0]).pc ∧ (7 : Byte) < 8 :=
  ⟨⟨rfl, _, rfl, rfl⟩, by decide, by decide⟩

theorem witness_PrnEmitsTheRegister :
    RunningAt (start 255 [0x47]) .prn ∧ (start 255 [0x47]).pc = 255 ∧ (7 : Byte) < 8 :=
  ⟨⟨rfl, _, rfl, rfl⟩, rfl, by decide⟩

theorem witness_MulMultipliesModulo256 :
    RunningAt (start 255 [0xA2]) .mul ∧ 254 ≤ (start 255 [0xA2]).pc ∧ (7 : Byte) < 8 ∧ (7 : Byte) ≤ 7 :=
  ⟨⟨rfl, _, rfl, rfl⟩, by decide, by decide, by decide⟩

theorem witness_AddAddsModulo256 :
    RunningAt (start 254 [0xA0, 0]) .add ∧ 254 ≤ (start 254 [0xA0, 0]).pc ∧ (7 : Byte) < 8 ∧ (7 : Byte) ≤ 7 :=
  ⟨⟨rfl, _, rfl, rfl⟩, by decide, by decide, by decide⟩

theorem witness_CmpWritesAllThreeFlags :
    RunningAt (start 255 [0xA7]) .cmp ∧ 254 ≤ (start 255 [0xA7]).pc ∧ (7 : Byte) < 8 ∧ (7 : Byte) ≤ 7 :=
  ⟨⟨rfl, _, rfl, rfl⟩, by decide, by decide, by decide⟩

/-- Room for the last byte (`sp` = 1), the full stack (`sp` = 0), a bad index, and PUSH at 255. -/
theorem witness_PushStoresBelowTheStackPointer :
    (∀ s : State, s = { push0 with sp := 1 } → s.mem.wf ∧ s.cfg.stackLow < s.sp) ∧
      (∀ s : State, s = { push0 with sp := 0 } → s.sp ≤ s.cfg.stackLow) ∧ (7 : Byte) < 8 ∧
      RunningAt (start 255 [0x45]) .push ∧ (start 255 [0x45]).pc = 255 :=
  ⟨by rintro s rfl; decide, by rintro s rfl; decide, by decide, ⟨rfl, _, rfl, rfl⟩, rfl⟩

theorem witness_PopLoadsTheTopOfStack :
    pop0.sp < pop0.cfg.spInit ∧ push0.cfg.spInit ≤ push0.sp ∧ (7 : Byte) < 8 ∧
      RunningAt (start 255 [0x46]) .pop ∧ (start 255 [0x46]).pc = 255 :=
  ⟨by decide, by decide, by decide, ⟨rfl, _, rfl, rfl⟩, rfl⟩

/-- CALL at 253 with room, on a full stack, at 254 with room, with a bad index, and at 255. -/
theorem witness_CallPushesTheReturnAddressAndJumps :
    (∀ s : State, s = start 253 [0x50, 0] → s.mem.wf ∧ s.cfg.stackLow < s.sp ∧ s.pc + 2 ≤ 255) ∧
      (∀ s : State, s = { start 253 [0x50, 0] with sp := 0 } → s.sp ≤ s.cfg.stackLow) ∧
      (∀ s : State, s = start 254 [0x50, 0] → s.cfg.stackLow < s.sp ∧ 255 < s.pc + 2) ∧ (7 : Byte) < 8 ∧
      RunningAt (start 255 [0x50]) .call ∧ (start 255 [0x50]).pc = 255 :=
  ⟨by rintro s rfl; decide, by rintro s rfl; decide, by rintro s rfl; decide, by decide, ⟨rfl, _, rfl, rfl⟩, rfl⟩

theorem witness_RetPopsThePc :
    pop0.sp < pop0.cfg.spInit ∧ push0.cfg.spInit ≤ push0.sp ∧ RunningAt (start 255 [0x11]) .ret :=
  ⟨by decide, by decide, ⟨rfl, _, rfl, rfl⟩⟩

theorem witness_JmpSetsThePc :
    RunningAt (start 255 [0x54]) .jmp ∧ (start 255 [0x54]).pc = 255 ∧ (7 : Byte) < 8 :=
  ⟨⟨rfl, _, rfl, rfl⟩, rfl, by decide⟩

theorem witness_JeqJumpsIffEqual :
    RunningAt (start 255 [0x55]) .jeq ∧ (start 255 [0x55]).pc = 255 ∧ (start 255 [0x55]).fl.e = false ∧
      ({ start 255 [0x55] with fl := ⟨true, false, false⟩ } : State).fl.e = true ∧ (7 : Byte) < 8 :=
  ⟨⟨rfl, _, rfl, rfl⟩, rfl, rfl, rfl, by decide⟩

theorem witness_JneJumpsIffNotEqual :
    RunningAt (start 255 [0x56]) .jne ∧ (start 255 [0x56]).pc = 255 ∧ (start 255 [0x56]).fl.e = false ∧
      ({ start 255 [0x56] with fl := ⟨true, false, false⟩ } : State).fl.e = true ∧ (7 : Byte) < 8 :=
  ⟨⟨rfl, _, rfl, rfl⟩, rfl, rfl, rfl, by decide⟩

theorem witness_HltAdvancesAndHalts :
    RunningAt (start 255 [0x01]) .hlt ∧ (start 255 [0x01]).err = none ∧ (start 256 []).run = .running ∧
      255 < (start 256 []).pc :=
  ⟨⟨rfl, _, rfl, rfl⟩, rfl, rfl, by decide⟩

end Sys2Proof.Tests
end

section
/-! SUPPORT. The read and write rules of memory (R31, R32) at the level of the two access primitives. -/

namespace Sys2Proof.Machine

/-- Everything a write that answers can answer. -/
theorem memWrite_eq_ok {m m' : Memory} {a : Nat} {v : Byte} (h : memWrite m a v = .ok m') :
    a ≤ 255 ∧ m.put a v = m' := by
  unfold memWrite at h
  split at h
  · exact ⟨‹_›, Except.ok.inj h⟩
  · cases h

/-- Read after write, at the address written. -/
theorem memRead_memWrite_self {m m' : Memory} {a : Nat} {v : Byte} (h : m.wf) (hw : memWrite m a v = .ok m') :
    memRead m' a = .ok v := by
  obtain ⟨ha, rfl⟩ := memWrite_eq_ok hw
  rw [memRead_ok ha, Memory.get_put_self a v h]

/-- Read after write, at every other address, inside memory or not. -/
theorem memRead_memWrite_of_ne {m m' : Memory} {a b : Nat} {v : Byte} (hb : b ≠ a) (hw : memWrite m a v = .ok m') :
    memRead m' b = memRead m b := by
  obtain ⟨-, rfl⟩ := memWrite_eq_ok hw
  rw [memRead, memRead, Memory.get_put_of_ne m v hb]

/-- Settles O21: the write answers inside 0 to 255, and what it answers obeys the read-after-write rules; outside, both
primitives fail their range check. -/
theorem memoryReadAndWriteContract : Obligations.MemoryReadAndWriteContract := by
  unfold Obligations.MemoryReadAndWriteContract
  intro m a v hwf
  constructor
  · intro ha
    have hw : memWrite m a v = .ok (m.put a v) := memWrite_ok v ha
    exact ⟨m.put a v, hw, memWrite_wf hwf hw, memRead_memWrite_self hwf hw, fun _ hb => memRead_memWrite_of_ne hb hw⟩
  · intro ha
    exact ⟨memWrite_error v ha, memRead_error ha⟩

end Sys2Proof.Machine
end

section
/-! SUPPORT. Halted for good, and the reset that starts a new run (R88). -/

namespace Sys2Proof.Machine

/-- A state that a step leaves as it is, any number of steps leaves as it is. -/
theorem run_eq_next_of_step_eq_next {M : Host.Core} {s : M.State} (h : M.step s = .next s) :
    ∀ n, M.run n s = .next s := by
  intro n
  induction n with
  | zero => rfl
  | succ n ih => simp only [Host.Core.run, h, ih]

/-- The parameters are all that a reset reads of the old state. -/
theorem restart_eq_of_cfg_eq {s u : State} (h : u.cfg = s.cfg) : u.restart = s.restart :=
  congrArg State.resetWith h

/-- Settles O18: a halted state is a fixed point of the step, hence of every run, and a reset reads the parameters alone. -/
theorem haltedIsForGood : Obligations.HaltedIsForGood := by
  unfold Obligations.HaltedIsForGood
  intro s hs
  exact ⟨run_eq_next_of_step_eq_next (step_halted hs), rfl, fun _ hu => restart_eq_of_cfg_eq hu⟩

end Sys2Proof.Machine
end

section
/-! SUPPORT. What reset and launch leave in the state (R28, R112): stored bytes are read back at their addresses. -/

namespace Sys2Proof.Machine

/-- Bytes that are in range are stored one `put` at a time. -/
theorem storeBytes_cons {a : Nat} (m : Memory) (b : Byte) (rest : List Byte) (ha : a ≤ 255) :
    storeBytes m a (b :: rest) = storeBytes (m.put a b) (a + 1) rest := by
  rw [storeBytes, memWrite_ok b ha]

/-- Addresses below the first stored one keep their byte. -/
theorem get_storeBytes_of_lt {bytes : List Byte} :
    ∀ {m : Memory} {a k : Nat}, k < a → a + bytes.length ≤ 256 → (storeBytes m a bytes).get k = m.get k := by
  induction bytes with
  | nil => exact fun _ _ => rfl
  | cons b rest ih =>
    intro m a k hk hlen
    rw [List.length_cons] at hlen
    calc (storeBytes m a (b :: rest)).get k
        = (storeBytes (m.put a b) (a + 1) rest).get k := by rw [storeBytes_cons m b rest (by omega)]
      _ = (m.put a b).get k := ih (by omega) (by omega)
      _ = m.get k := Memory.get_put_of_ne m b (by omega)

/-- From the first stored address on, the bytes are read in order, and past them what memory held before. -/
theorem get_storeBytes_add {bytes : List Byte} :
    ∀ {m : Memory} {a : Nat} (k : Nat), m.wf → a + bytes.length ≤ 256 →
      (storeBytes m a bytes).get (a + k) = bytes.getD k (m.get (a + k)) := by
  induction bytes with
  | nil => exact fun _ _ _ => rfl
  | cons b rest ih =>
    intro m a k hwf hlen
    rw [List.length_cons] at hlen
    have ha : a ≤ 255 := by omega
    rw [storeBytes_cons m b rest ha]
    cases k with
    | zero =>
      rw [get_storeBytes_of_lt (by omega) (by omega)]
      exact Memory.get_put_self a b hwf
    | succ k =>
      have hput : (m.put a b).get (a + 1 + k) = m.get (a + 1 + k) := Memory.get_put_of_ne m b (by omega)
      rw [show a + (k + 1) = a + 1 + k by omega, ih k (Memory.put_wf b ha hwf) (by omega), hput, List.getD_cons_succ]

/-- An image stored in the empty memory from address 0 reads as the image padded with zeros. -/
theorem memRead_storeBytes_nil {image : List Byte} {a : Nat} (hlen : image.length ≤ 256) (ha : a ≤ 255) :
    memRead (storeBytes [] 0 image) a = .ok (image.getD a 0) := by
  have h := get_storeBytes_add (a := 0) a Memory.nil_wf (by rwa [Nat.zero_add])
  rw [Nat.zero_add] at h
  rw [memRead_ok ha, h]
  rfl

/-- Every register is 0 after reset. -/
@[simp] theorem State.resetWith_reg (c : Config) (i : Fin 8) : (State.resetWith c).reg i = 0 :=
  Vector.getElem_replicate i.isLt

/-- Every cell is 0 after reset. -/
theorem State.resetWith_read (c : Config) {a : Nat} (ha : a ≤ 255) : (State.resetWith c).read a = .ok 0 :=
  memRead_ok ha

/-- A launch within R5 and R113 is the reset state with the image stored from address 0. -/
theorem launch_eq_next {c : Config} {image : List Byte} (hc : c.wf) (hlen : image.length ≤ 256) :
    launch c image = .next { State.resetWith c with mem := storeBytes [] 0 image } := by
  rw [launch, if_neg (not_not_intro hc), if_neg (by omega)]

/-- Settles O5: the reset table field by field, and the launch state with its memory read back by `storeBytes`' rule. -/
theorem resetAndLoadedState : Obligations.ResetAndLoadedState := by
  unfold Obligations.ResetAndLoadedState
  intro c
  constructor
  · rintro s rfl
    exact ⟨State.resetWith_reg c, rfl, rfl, rfl, rfl, rfl, rfl, fun _ ha => State.resetWith_read c ha⟩
  · intro image hc hlen
    exact ⟨_, launch_eq_next hc hlen, rfl, fun _ ha => memRead_storeBytes_nil hlen ha⟩

end Sys2Proof.Machine
end

section
/-! SUPPORT. The encoder and the decoder undo each other, for every opcode map (R45, R46, R51, R59). -/

namespace Sys2Proof

/-- An opcode byte of the instruction's row, its operand bytes and anything behind them decode to the instruction: the
converse of `decode_eq_ok`. -/
theorem decode_of_lookup {opc : OpcodeMap} {b : Byte} {i : Instr} (h : opc.lookup b = some i.mnemonic)
    (rest : List Byte) : decode opc (b :: (i.operands ++ rest)) = .ok (i, rest) := by
  cases i <;> simp only [decode, h] <;> rfl

theorem decode_encode {opc : OpcodeMap} (h : opc.Injective) (i : Instr) (rest : List Byte) :
    decode opc (encode opc i ++ rest) = .ok (i, rest) :=
  decode_of_lookup (OpcodeMap.lookup_byte h i.mnemonic) rest

theorem encode_of_decode {opc : OpcodeMap} {bytes rest : List Byte} {i : Instr}
    (h : decode opc bytes = .ok (i, rest)) : bytes = encode opc i ++ rest := by
  obtain ⟨b, hl, rfl⟩ := decode_eq_ok h
  rw [encode, OpcodeMap.byte_of_lookup hl, List.cons_append]

theorem encode_length (opc : OpcodeMap) (i : Instr) : (encode opc i).length = i.mnemonic.length := by
  rw [encode, List.length_cons, Machine.Instr.operands_length, Mnemonic.length, Nat.add_comm]

theorem Mnemonic.length_bounds (m : Mnemonic) : 1 ≤ m.length ∧ m.length ≤ 3 := by
  cases m <;> decide

/-- Settles O2: the opcode byte is looked up to its own row, which takes exactly the operand bytes the encoder wrote. -/
theorem decodeOfEncodeIsTheInstruction : Obligations.DecodeOfEncodeIsTheInstruction := by
  unfold Obligations.DecodeOfEncodeIsTheInstruction
  exact fun _ h i rest => decode_encode h i rest

/-- Settles O3: a decoding that succeeds names its opcode byte's row and its operand bytes. -/
theorem encodeOfDecodeIsTheBytes : Obligations.EncodeOfDecodeIsTheBytes := by
  unfold Obligations.EncodeOfDecodeIsTheBytes
  exact fun _ _ _ _ h => encode_of_decode h

/-- Settles O1: each of the thirteen byte sequences is the encoding of its instruction under the default opcode map. -/
theorem defaultOpcodeBytesDecode : Obligations.DefaultOpcodeBytesDecode := by
  unfold Obligations.DefaultOpcodeBytesDecode
  have h := fun i => decode_encode OpcodeMap.default_injective i []
  exact ⟨h (.ldi 5 255), h (.prn 7), h (.mul 1 2), h (.add 3 4), h (.cmp 0 6), h (.push 2), h (.pop 4), h (.call 1),
    h .ret, h (.jmp 3), h (.jeq 5), h (.jne 6), h .hlt⟩

/-- The opcode bytes of an injective map, as numbers: thirteen of them. -/
theorem OpcodeMap.card_bytes {opc : OpcodeMap} (h : opc.Injective) :
    (Mnemonic.all.toFinset.image fun m => (opc.byte m).toNat).card = 13 := by
  rw [Finset.card_image_of_injOn]
  · decide
  · intro m _ n _ hmn
    exact h m m.mem_all n n.mem_all (BitVec.eq_of_toNat_eq hmn)

/-- The numbers below 256 that are no opcode are the ones left when the opcode bytes are taken away. -/
theorem OpcodeMap.filter_illegal (opc : OpcodeMap) :
    (Finset.range 256).filter (fun n => ∀ m ∈ Mnemonic.all, opc.byte m ≠ BitVec.ofNat 8 n) =
      Finset.range 256 \ Mnemonic.all.toFinset.image fun m => (opc.byte m).toNat := by
  ext n
  simp only [Finset.mem_filter, Finset.mem_sdiff, Finset.mem_range, Finset.mem_image, List.mem_toFinset, not_exists,
    not_and]
  refine and_congr_right fun hn => forall₂_congr fun m _ => not_congr ?_
  rw [← BitVec.toNat_inj, BitVec.toNat_ofNat, Nat.mod_eq_of_lt hn]

theorem OpcodeMap.countP_illegal {opc : OpcodeMap} (h : opc.Injective) :
    (List.range 256).countP (fun n => decide (∀ m ∈ Mnemonic.all, opc.byte m ≠ BitVec.ofNat 8 n)) = 243 := by
  have hsub : (Mnemonic.all.toFinset.image fun m => (opc.byte m).toNat) ⊆ Finset.range 256 := by
    intro n hn
    obtain ⟨m, -, rfl⟩ := Finset.mem_image.1 hn
    exact Finset.mem_range.2 (opc.byte m).isLt
  calc (List.range 256).countP (fun n => decide (∀ m ∈ Mnemonic.all, opc.byte m ≠ BitVec.ofNat 8 n))
      = ((Finset.range 256).filter fun n => ∀ m ∈ Mnemonic.all, opc.byte m ≠ BitVec.ofNat 8 n).card :=
        List.countP_eq_length_filter
    _ = 256 - 13 := by
        rw [opc.filter_illegal, Finset.card_sdiff_of_subset hsub, Finset.card_range, OpcodeMap.card_bytes h]

end Sys2Proof
end

section
/-! SUPPORT. Operand validation: the first register operand above 7 is raised, and only register bytes pass (R47, R64). -/

namespace Sys2Proof.Machine

variable {s t : State}

theorem exists_regByte {b : Byte} (h : b ≤ 7) : ∃ i, b = regByte i := by
  cases hr : regIndex b with
  | ok i => exact ⟨i, regIndex_eq_ok hr⟩
  | error e => exact absurd (regIndex_eq_error hr).1 (BitVec.not_lt.2 h)

theorem find_bad_one {r b : Byte} (h : [r].find? (fun r => decide (7 < r)) = some b) : 7 < r ∧ b = r := by
  rw [List.find?_singleton, Option.ite_none_right_eq_some] at h
  exact ⟨of_decide_eq_true h.1, (Option.some.inj h.2).symm⟩

theorem find_bad_two {a c b : Byte} (h : [a, c].find? (fun r => decide (7 < r)) = some b) :
    (7 < a ∧ b = a) ∨ (a ≤ 7 ∧ 7 < c ∧ b = c) := by
  by_cases ha : 7 < a
  · rw [List.find?_cons_of_pos (by exact decide_eq_true ha)] at h
    exact .inl ⟨ha, (Option.some.inj h).symm⟩
  · rw [List.find?_cons_of_neg (by simpa using ha)] at h
    exact .inr ⟨BitVec.not_lt.1 ha, find_bad_one h⟩

/-- An instruction that begins by validating a bad operand raises it, whatever it would do next. -/
theorem conclude_regIndex_bad {r : Byte} (h : 7 < r) (f : Fin 8 → Except ErrorRecord State) :
    conclude s (regIndex r >>= f) = .next (Raised s .invalidRegister r.toNat) := by
  rw [regIndex_error h]
  rfl

theorem execAlu_bad_first (op : AluOp) {a : Byte} (c : Byte) (h : 7 < a) :
    execAlu op a c s = .next (Raised s .invalidRegister a.toNat) :=
  conclude_regIndex_bad h _

theorem execAlu_bad_second (op : AluOp) {a c : Byte} (ha : a ≤ 7) (h : 7 < c) :
    execAlu op a c s = .next (Raised s .invalidRegister c.toNat) := by
  obtain ⟨i, rfl⟩ := exists_regByte ha
  rw [execAlu, regIndex_regByte, except_ok_bind, conclude_regIndex_bad h]

/-- The first register operand above 7 is raised, by every instruction that has one. -/
theorem exec_of_find_bad {i : Instr} {b : Byte} (h : i.regOperands.find? (fun r => decide (7 < r)) = some b) :
    exec i s = .next (Raised s .invalidRegister b.toNat) := by
  cases i
  case ret | hlt => cases h
  case mul a c | add a c | cmp a c =>
    rcases find_bad_two h with ⟨ha, rfl⟩ | ⟨ha, hc, rfl⟩
    · exact execAlu_bad_first _ c ha
    · exact execAlu_bad_second _ ha hc
  all_goals
    obtain ⟨hr, rfl⟩ := find_bad_one h
    exact conclude_regIndex_bad hr _

/-- Every register operand of a well-formed instruction names a register. -/
theorem exists_regByte_of_mem {i : Instr} {r : Byte} (h : i.wf = true) (hr : r ∈ i.regOperands) :
    ∃ j, r = regByte j :=
  exists_regByte (of_decide_eq_true (List.all_eq_true.1 h r hr))

/-- An instruction with no register operand above 7 is well-formed. -/
theorem wf_of_find_bad_none {i : Instr} (h : i.regOperands.find? (fun r => decide (7 < r)) = none) : i.wf = true := by
  simpa [Instr.wf] using h

/-- Settles O14: every instruction with a register operand validates it before anything else it does. -/
theorem firstBadRegisterIsReported : Obligations.FirstBadRegisterIsReported := by
  unfold Obligations.FirstBadRegisterIsReported
  exact fun _ _ _ h => exec_of_find_bad h

end Sys2Proof.Machine
end

section
/-! SUPPORT. What executing an instruction answers, said once for all instructions: it raises one of its errors or it
completes with the effect of its rule, and each of the two is a rule that can be applied as well as inverted. -/

namespace Sys2Proof.Machine

/-- `Completes s i t`: on `s` the instruction `i` completes, and leaves `t` (rules R70 to R87). -/
inductive Completes (s : State) : Instr → State → Prop
  | ldi (i : Fin 8) (imm : Byte) : Completes s (.ldi (regByte i) imm) ((s.setReg i imm).advance 3)
  | prn (i : Fin 8) : Completes s (.prn (regByte i)) ((s.emit (s.reg i)).advance 2)
  | mul (i j : Fin 8) :
    Completes s (.mul (regByte i) (regByte j)) ((s.setReg i (mulBytes (s.reg i) (s.reg j))).advance 3)
  | add (i j : Fin 8) :
    Completes s (.add (regByte i) (regByte j)) ((s.setReg i (addBytes (s.reg i) (s.reg j))).advance 3)
  | cmp (i j : Fin 8) :
    Completes s (.cmp (regByte i) (regByte j)) { s with fl := compareFlags (s.reg i) (s.reg j), pc := s.pc + 3 }
  | push (i : Fin 8) (room : s.cfg.stackLow < s.sp) :
    Completes s (.push (regByte i))
      { s with sp := s.sp - 1, mem := s.mem.put s.pushAddress (s.reg i), pc := s.pc + 2 }
  | pop (i : Fin 8) (filled : s.sp < s.cfg.spInit) :
    Completes s (.pop (regByte i)) ((({ s with sp := s.sp + 1 } : State).setReg i (s.mem.get s.sp.toNat)).advance 2)
  | call (i : Fin 8) (room : s.cfg.stackLow < s.sp) (ret : s.pc + 2 ≤ 255) :
    Completes s (.call (regByte i))
      { s with sp := s.sp - 1, mem := s.mem.put s.pushAddress (BitVec.ofNat 8 (s.pc + 2)), pc := (s.reg i).toNat }
  | ret (filled : s.sp < s.cfg.spInit) :
    Completes s .ret (({ s with sp := s.sp + 1 } : State).jump (s.mem.get s.sp.toNat))
  | jmp (i : Fin 8) : Completes s (.jmp (regByte i)) (s.jump (s.reg i))
  | jeqTaken (i : Fin 8) (equal : s.fl.e = true) : Completes s (.jeq (regByte i)) (s.jump (s.reg i))
  | jeqNotTaken (i : Fin 8) (equal : s.fl.e = false) : Completes s (.jeq (regByte i)) (s.advance 2)
  | jneTaken (i : Fin 8) (equal : s.fl.e = false) : Completes s (.jne (regByte i)) (s.jump (s.reg i))
  | jneNotTaken (i : Fin 8) (equal : s.fl.e = true) : Completes s (.jne (regByte i)) (s.advance 2)
  | hlt : Completes s .hlt { s with pc := s.pc + 1, run := .halted }

variable {s t : State} {i : Instr} {e : ErrorRecord}

theorem exec_of_completes (h : Completes s i t) : exec i s = .next t := by
  cases h with
  | ldi | prn | jmp => simp [exec, execLdi, execPrn, execJmp]
  | jeqTaken _ equal | jeqNotTaken _ equal => simp [exec, execJeq, State.equal, equal]
  | jneTaken _ equal | jneNotTaken _ equal => simp [exec, execJne, State.equal, equal]
  | mul | add | cmp => simp [exec, execMul, execAdd, execCmp, execAlu, aluApply, State.advance]
  | push _ room => simp [exec, execPush, checkPush_ok room, State.advance]
  | pop _ filled => simp [exec, execPop, checkPop_ok filled]
  | call _ room ret => simp [exec, execCall, checkPush_ok room, returnByte_ok ret, State.jump]
  | ret filled => simp [exec, execRet, checkPop_ok filled]
  | hlt => rfl

theorem exec_push_full (j : Fin 8) (h : s.sp ≤ s.cfg.stackLow) :
    exec (.push (regByte j)) s = .next (Raised s .stackOverflow s.sp.toNat) := by
  simp [exec, execPush, checkPush_error h, State.raise_eq_raised]

theorem exec_call_full (j : Fin 8) (h : s.sp ≤ s.cfg.stackLow) :
    exec (.call (regByte j)) s = .next (Raised s .stackOverflow s.sp.toNat) := by
  simp [exec, execCall, checkPush_error h, State.raise_eq_raised]

theorem exec_call_no_return (j : Fin 8) (h : s.cfg.stackLow < s.sp) (hpc : 255 < s.pc + 2) :
    exec (.call (regByte j)) s = .next (Raised s .addressOutOfRange (s.pc + 2)) := by
  simp [exec, execCall, checkPush_ok h, returnByte_error hpc, State.raise_eq_raised]

theorem exec_pop_empty (j : Fin 8) (h : s.cfg.spInit ≤ s.sp) :
    exec (.pop (regByte j)) s = .next (Raised s .stackUnderflow s.sp.toNat) := by
  simp [exec, execPop, checkPop_error h, State.raise_eq_raised]

theorem exec_ret_empty (h : s.cfg.spInit ≤ s.sp) : exec .ret s = .next (Raised s .stackUnderflow s.sp.toNat) := by
  simp [exec, execRet, checkPop_error h, State.raise_eq_raised]

theorem exec_of_execError (h : ExecError i s e) : exec i s = .next (s.raise e) := by
  rcases h with ⟨b, hb, rfl⟩ | ⟨hwf, ⟨hm, hs, rfl⟩ | ⟨hm, hs, rfl⟩ | ⟨hm, hs, hpc, rfl⟩⟩
  · exact exec_of_find_bad hb
  · cases i <;> simp [Instr.mnemonic] at hm
    case push r =>
      obtain ⟨j, rfl⟩ := exists_regByte_of_mem hwf (List.mem_singleton_self r)
      exact exec_push_full j hs
    case call r =>
      obtain ⟨j, rfl⟩ := exists_regByte_of_mem hwf (List.mem_singleton_self r)
      exact exec_call_full j hs
  · cases i <;> simp [Instr.mnemonic] at hm
    case pop r =>
      obtain ⟨j, rfl⟩ := exists_regByte_of_mem hwf (List.mem_singleton_self r)
      exact exec_pop_empty j hs
    case ret => exact exec_ret_empty hs
  · cases i <;> simp [Instr.mnemonic] at hm
    case call r =>
      obtain ⟨j, rfl⟩ := exists_regByte_of_mem hwf (List.mem_singleton_self r)
      exact exec_call_no_return j hs hpc

/-- A well-formed instruction completes, unless a check of its own rule fails. -/
theorem completes_or_execError_of_wf (h : i.wf = true) (s : State) :
    (∃ t, Completes s i t) ∨ ∃ e, ExecError i s e := by
  cases i
  case ret =>
    by_cases filled : s.sp < s.cfg.spInit
    · exact .inl ⟨_, .ret filled⟩
    · exact .inr ⟨_, .inr ⟨h, .inr (.inl ⟨by simp [Instr.mnemonic], BitVec.not_lt.1 filled, rfl⟩)⟩⟩
  case hlt => exact .inl ⟨_, .hlt⟩
  case mul a b | add a b | cmp a b =>
    obtain ⟨j, rfl⟩ := exists_regByte_of_mem h List.mem_cons_self
    obtain ⟨k, rfl⟩ := exists_regByte_of_mem h (List.mem_cons_of_mem _ List.mem_cons_self)
    exact .inl ⟨_, by constructor⟩
  all_goals obtain ⟨j, rfl⟩ := exists_regByte_of_mem h List.mem_cons_self
  case push =>
    by_cases room : s.cfg.stackLow < s.sp
    · exact .inl ⟨_, .push j room⟩
    · exact .inr ⟨_, .inr ⟨h, .inl ⟨by simp [Instr.mnemonic], BitVec.not_lt.1 room, rfl⟩⟩⟩
  case pop =>
    by_cases filled : s.sp < s.cfg.spInit
    · exact .inl ⟨_, .pop j filled⟩
    · exact .inr ⟨_, .inr ⟨h, .inr (.inl ⟨by simp [Instr.mnemonic], BitVec.not_lt.1 filled, rfl⟩)⟩⟩
  case call =>
    by_cases room : s.cfg.stackLow < s.sp
    · by_cases hret : s.pc + 2 ≤ 255
      · exact .inl ⟨_, .call j room hret⟩
      · exact .inr ⟨_, .inr ⟨h, .inr (.inr ⟨rfl, room, by omega, rfl⟩)⟩⟩
    · exact .inr ⟨_, .inr ⟨h, .inl ⟨by simp [Instr.mnemonic], BitVec.not_lt.1 room, rfl⟩⟩⟩
  case jeq =>
    cases equal : s.fl.e with
    | true => exact .inl ⟨_, .jeqTaken j equal⟩
    | false => exact .inl ⟨_, .jeqNotTaken j equal⟩
  case jne =>
    cases equal : s.fl.e with
    | true => exact .inl ⟨_, .jneNotTaken j equal⟩
    | false => exact .inl ⟨_, .jneTaken j equal⟩
  all_goals exact .inl ⟨_, by constructor⟩

/-- So every instruction completes or raises one of its errors. -/
theorem completes_or_execError (i : Instr) (s : State) : (∃ t, Completes s i t) ∨ ∃ e, ExecError i s e := by
  cases hb : i.regOperands.find? (fun r => decide (7 < r)) with
  | none => exact completes_or_execError_of_wf (wf_of_find_bad_none hb) s
  | some b => exact .inr ⟨_, .inl ⟨b, hb, rfl⟩⟩

/-- Executing an instruction, inverted: the two rules `exec_of_completes` and `exec_of_execError` are all there is. -/
theorem exec_effect (h : exec i s = .next t) : Completes s i t ∨ ∃ e, ExecError i s e ∧ t = s.raise e := by
  rcases completes_or_execError i s with ⟨u, hu⟩ | ⟨e, he⟩
  · rw [exec_of_completes hu] at h
    exact .inl (Host.Outcome.next.inj h ▸ hu)
  · rw [exec_of_execError he] at h
    exact .inr ⟨e, he, (Host.Outcome.next.inj h).symm⟩

theorem exec_exists_next (i : Instr) (s : State) : ∃ t, exec i s = .next t := by
  rcases completes_or_execError i s with ⟨t, ht⟩ | ⟨e, he⟩
  · exact ⟨t, exec_of_completes ht⟩
  · exact ⟨_, exec_of_execError he⟩

end Sys2Proof.Machine
end

section
/-! SUPPORT. Fetch, decode and operand fetch (R61 to R63), and the count of illegal opcodes (R52). -/

namespace Sys2Proof.Machine

variable {s t : State} {i : Instr} {e : ErrorRecord}

theorem fetchInstr_of_decode {rest : List Byte} (h : decode s.cfg.opc (codeBytes s.mem s.pc 3) = .ok (i, rest)) :
    fetchInstr s = .ok i := by
  rw [fetchInstr, h]

/-- Settles O10: decoding the bytes at `pc` is all that fetching does. -/
theorem stepRunsDecodedInstruction : Obligations.StepRunsDecodedInstruction := by
  unfold Obligations.StepRunsDecodedInstruction
  exact fun _ _ _ hr h _ => step_of_fetch hr (fetchInstr_of_decode h)

/-- Bytes that lie in memory from an address on are what `codeBytes` reads there first. -/
theorem codeBytes_of_reads {m : Memory} {l : List Byte} :
    ∀ {a n : Nat}, l.length ≤ n → (∀ k b, l[k]? = some b → memRead m (a + k) = .ok b) →
      ∃ rest, codeBytes m a n = l ++ rest := by
  induction l with
  | nil => exact fun _ _ => ⟨_, rfl⟩
  | cons c l ih =>
    intro a n hlen h
    obtain ⟨n, rfl⟩ : ∃ k, n = k + 1 := ⟨n - 1, by rw [List.length_cons] at hlen; omega⟩
    have hread : ∀ k b, l[k]? = some b → memRead m (a + 1 + k) = .ok b := fun k b hk => by
      rw [Nat.add_right_comm, Nat.add_assoc]
      exact h (k + 1) b hk
    obtain ⟨rest, hrest⟩ := ih (Nat.le_of_succ_le_succ hlen) hread
    obtain ⟨ha, hc⟩ : a ≤ 255 ∧ m.get a = c := memRead_eq_ok (h 0 c rfl)
    exact ⟨rest, by rw [codeBytes_cons ha, hrest, hc, List.cons_append]⟩

theorem fetchInstr_of_encode (h : s.cfg.opc.Injective)
    (hb : ∀ k b, (encode s.cfg.opc i)[k]? = some b → s.read (s.pc + k) = .ok b) : fetchInstr s = .ok i := by
  have hlen : (encode s.cfg.opc i).length ≤ 3 := encode_length s.cfg.opc i ▸ (i.mnemonic.length_bounds).2
  obtain ⟨rest, hrest⟩ := codeBytes_of_reads hlen hb
  exact fetchInstr_of_decode (by rw [hrest, decode_encode h i rest])

/-- Settles O11: the bytes read at `pc` begin with the encoding, and decode to the instruction. -/
theorem encodedInstructionInMemoryRuns : Obligations.EncodedInstructionInMemoryRuns := by
  unfold Obligations.EncodedInstructionInMemoryRuns
  exact fun _ _ hopc hr hb => step_of_fetch hr (fetchInstr_of_encode hopc hb)

theorem fetchInstr_past_255 (h : 255 < s.pc) : fetchInstr s = .error ⟨.addressOutOfRange, s.pc⟩ := by
  rw [fetchInstr, codeBytes_none h]
  rfl

theorem step_past_255 (hr : s.run = .running) (h : 255 < s.pc) :
    step s = .next (Raised s .addressOutOfRange s.pc) :=
  step_of_fetch_error hr (fetchInstr_past_255 h)

theorem fetchInstr_unknown {b : Byte} (hb : s.read s.pc = .ok b) (h : s.cfg.opc.lookup b = none) :
    fetchInstr s = .error ⟨.unknownInstruction, b.toNat⟩ := by
  obtain ⟨hpc, hget⟩ := memRead_eq_ok hb
  rw [fetchInstr, codeBytes_cons hpc, hget]
  simp only [decode, h]
  rfl

theorem step_unknown {b : Byte} (hr : s.run = .running) (hb : s.read s.pc = .ok b) (h : s.cfg.opc.lookup b = none) :
    step s = .next (Raised s .unknownInstruction b.toNat) :=
  step_of_fetch_error hr (fetchInstr_unknown hb h)

/-- The termination signal of a raised error is its kind's code (R98). -/
theorem signal_raised (k : ErrorKind) (n : Nat) : (Raised s k n).signal = some k.code := rfl

theorem ErrorKind.code_ne_zero (k : ErrorKind) : k.code ≠ 0 := by
  cases k <;> decide

/-- Settles O4: the table has thirteen distinct bytes, and a byte outside it fails the lookup of the fetch. -/
theorem illegalOpcodeBytesAreUnknownInstructions : Obligations.IllegalOpcodeBytesAreUnknownInstructions := by
  unfold Obligations.IllegalOpcodeBytesAreUnknownInstructions
  intro opc hopc
  refine ⟨OpcodeMap.countP_illegal hopc, ?_⟩
  rintro s b rfl hr hb hillegal
  exact ⟨step_unknown hr hb (OpcodeMap.lookup_eq_none.2 hillegal), _, ErrorKind.code_ne_zero _, signal_raised ..⟩

/-- Settles O12: the two errors a fetch raises before any operand is read. -/
theorem opcodeFetchAndDecodeErrors : Obligations.OpcodeFetchAndDecodeErrors := by
  unfold Obligations.OpcodeFetchAndDecodeErrors
  intro s hr
  exact ⟨step_past_255 hr, fun b hb h => ⟨_, _, step_unknown hr hb h, rfl, rfl, ErrorKind.code_ne_zero _,
    signal_raised ..⟩⟩

/-- An instruction whose bytes reach past 255 is not executed (R63). -/
theorem step_of_overrun {m : Mnemonic} (h : RunningAt s m) (hlen : 256 < s.pc + m.length) :
    step s = .next (Raised s .addressOutOfRange 256) := by
  rcases runningAt_cases h with ⟨-, hs⟩ | ⟨hle, -⟩
  · exact hs
  · omega

/-- One whose bytes fit is. -/
theorem fetchInstr_of_fits {m : Mnemonic} (h : RunningAt s m) (hlen : s.pc + m.length ≤ 256) :
    ∃ i : Instr, i.mnemonic = m ∧ fetchInstr s = .ok i ∧ step s = exec i s := by
  rcases runningAt_cases h with ⟨hlt, -⟩ | ⟨-, hi⟩
  · omega
  · exact hi

/-- Settles O13: the two cases of an opcode at `pc`, and the operand bytes a fetched instruction has. -/
theorem operandFetchReadsExactlyTheOperands : Obligations.OperandFetchReadsExactlyTheOperands := by
  unfold Obligations.OperandFetchReadsExactlyTheOperands
  refine fun s m h => ⟨step_of_overrun h, fun hlen => ?_⟩
  obtain ⟨i, hm, hf, hs⟩ := fetchInstr_of_fits h hlen
  exact ⟨i, hm, hs, (instrAt_of_fetch hf).2⟩

end Sys2Proof.Machine
end

section
/-! SUPPORT. The step, inverted, and the errors it can raise (R66, R90 to R97). -/

namespace Sys2Proof.Machine

variable {s t : State} {i : Instr} {e : ErrorRecord}

/-- The errors a step can raise: of the fetch, or of the fetched instruction (R100). -/
def StepError (s : State) (e : ErrorRecord) : Prop :=
  fetchInstr s = .error e ∨ ∃ i, fetchInstr s = .ok i ∧ ExecError i s e

/-- All a step can do: nothing when Halted; when Running, raise an error, or complete the instruction at `pc`. -/
theorem step_effect (h : step s = .next t) :
    (s.run = .halted ∧ t = s) ∨
      (s.run = .running ∧ ∃ e, StepError s e ∧ t = s.raise e) ∨
      (s.run = .running ∧ ∃ i, fetchInstr s = .ok i ∧ Completes s i t) := by
  rcases step_cases h with hs | ⟨hr, i, hf, hx⟩ | ⟨hr, e, hf, ht⟩
  · exact .inl hs
  · rcases exec_effect hx with hc | ⟨e, he, ht⟩
    · exact .inr (.inr ⟨hr, i, hf, hc⟩)
    · exact .inr (.inl ⟨hr, e, .inr ⟨i, hf, he⟩, ht⟩)
  · exact .inr (.inl ⟨hr, e, .inl hf, ht⟩)

theorem step_of_stepError (hr : s.run = .running) (h : StepError s e) : step s = .next (s.raise e) := by
  rcases h with hf | ⟨i, hf, he⟩
  · exact step_of_fetch_error hr hf
  · exact (step_of_fetch hr hf).trans (exec_of_execError he)

theorem step_of_completes (hr : s.run = .running) (hf : fetchInstr s = .ok i) (h : Completes s i t) :
    step s = .next t :=
  (step_of_fetch hr hf).trans (exec_of_completes h)

/-- Settles O19: a halted state, a raised state, or what the fetched instruction answers. -/
theorem everyStepAnswersNext : Obligations.EveryStepAnswersNext := by
  unfold Obligations.EveryStepAnswersNext
  intro s
  cases hr : s.run with
  | halted => exact ⟨s, step_halted hr⟩
  | running =>
    cases hf : fetchInstr s with
    | error e => exact ⟨_, step_of_fetch_error hr hf⟩
    | ok i => exact (exec_exists_next i s).imp fun _ ht => (step_of_fetch hr hf).trans ht

namespace Completes

/-- Completing writes no error record. -/
theorem err_eq (h : Completes s i t) : t.err = s.err := by
  cases h <;> rfl

/-- Nor a parameter. -/
theorem cfg_eq (h : Completes s i t) : t.cfg = s.cfg := by
  cases h <;> rfl

/-- And only HLT writes the run state. -/
theorem run_eq (h : Completes s i t) : t.run = s.run ∨ i = .hlt ∧ t = { s with pc := s.pc + 1, run := .halted } := by
  cases h with
  | hlt => exact .inr ⟨rfl, rfl⟩
  | _ => exact .inl rfl

end Completes

/-- The error record after a step: the old one, or one the step raised. -/
theorem step_err (h : step s = .next t) :
    t.err = s.err ∨ s.run = .running ∧ ∃ e, StepError s e ∧ t = s.raise e := by
  rcases step_effect h with ⟨-, rfl⟩ | hraise | ⟨-, i, -, hc⟩
  · exact .inl rfl
  · exact .inr hraise
  · exact .inl hc.err_eq

/-- Settles O15: only raising an error writes the record. -/
theorem errorEntryChangesOnlyRunAndErr : Obligations.ErrorEntryChangesOnlyRunAndErr := by
  unfold Obligations.ErrorEntryChangesOnlyRunAndErr
  intro s t h hne
  rcases step_err h with heq | ⟨-, e, -, rfl⟩
  · exact absurd heq hne
  · exact ⟨e.kind, e.info, rfl⟩

/-- What explains an error does not read the run state or the record. -/
theorem errorExplained_raise {e' : ErrorRecord} : ErrorExplained (s.raise e') e ↔ ErrorExplained s e :=
  Iff.rfl

theorem errorExplained_of_fetch_error (hpc : s.pc ≤ 256) (h : fetchInstr s = .error e) : ErrorExplained s e := by
  rcases fetchInstr_eq_error h with ⟨hlt, rfl⟩ | ⟨b, hb, ⟨hl, rfl⟩ | ⟨m, hm, hlen, rfl⟩⟩
  · have h256 : s.pc = 256 := by omega
    exact ⟨h256, .inl h256⟩
  · exact ⟨b, hb, rfl, OpcodeMap.lookup_eq_none.1 hl⟩
  · exact ⟨rfl, .inr (.inl ⟨m, ⟨b, hb, hm⟩, hlen⟩)⟩

theorem errorExplained_of_execError (hf : fetchInstr s = .ok i) (h : ExecError i s e) : ErrorExplained s e := by
  have hat := instrAt_of_fetch hf
  rcases h with ⟨b, hb, rfl⟩ | ⟨hwf, ⟨hm, hs, rfl⟩ | ⟨hm, hs, rfl⟩ | ⟨hm, hs, hlt, rfl⟩⟩
  · exact ⟨i, b, hat, hb, rfl⟩
  · exact ⟨i, hat, hwf, hm, rfl, hs⟩
  · exact ⟨i, hat, hwf, hm, rfl, hs⟩
  · have hlen : s.pc + Mnemonic.call.length ≤ 256 := hm ▸ (fetchInstr_eq_ok hf).2.1
    have hpc : s.pc = 254 := by
      rw [show Mnemonic.call.length = 2 from rfl] at hlen
      omega
    exact ⟨by rw [hpc], .inr (.inr ⟨i, hat, hwf, hm, hs, hpc⟩)⟩

theorem errorExplained_of_stepError (hpc : s.pc ≤ 256) (h : StepError s e) : ErrorExplained s e := by
  rcases h with hf | ⟨i, hf, he⟩
  · exact errorExplained_of_fetch_error hpc hf
  · exact errorExplained_of_execError hf he

/-- Settles O16: an error that was not there before was raised, and each of the errors a step raises has its cause. -/
theorem raisedErrorHasItsListedCause : Obligations.RaisedErrorHasItsListedCause := by
  unfold Obligations.RaisedErrorHasItsListedCause
  intro s t e hpc hnone h hsome
  rcases step_err h with heq | ⟨-, e', he, rfl⟩
  · rw [heq, hnone] at hsome
    cases hsome
  · cases hsome
    exact ⟨rfl, errorExplained_raise.2 (errorExplained_of_stepError hpc he)⟩

theorem StepError.kind_ne_unsupported (h : StepError s e) : e.kind ≠ .unsupportedOperation := by
  rcases h with hf | ⟨i, -, ⟨b, -, rfl⟩ | ⟨-, ⟨-, -, rfl⟩ | ⟨-, -, rfl⟩ | ⟨-, -, -, rfl⟩⟩⟩
  · rcases fetchInstr_eq_error hf with ⟨-, rfl⟩ | ⟨b, -, ⟨-, rfl⟩ | ⟨m, -, -, rfl⟩⟩ <;>
      exact ErrorKind.noConfusion
  all_goals exact ErrorKind.noConfusion

/-- Settles O17: the ALU's last arm, and that no error a step raises is of its kind. -/
theorem unsupportedOperationIsUnreachable : Obligations.UnsupportedOperationIsUnreachable := by
  unfold Obligations.UnsupportedOperationIsUnreachable
  refine ⟨fun _ _ _ _ => rfl, fun s t hs h e he => ?_⟩
  rcases step_err h with heq | ⟨-, e', he', rfl⟩
  · exact hs e (heq ▸ he)
  · cases he
    exact he'.kind_ne_unsupported

theorem ErrorKind.code_injective : ∀ k l : ErrorKind, k.code = l.code → k = l := by
  intro k l h
  cases k <;> cases l <;> cases h <;> rfl

/-- Settles O20: only HLT and a raised error write the run state. -/
theorem haltsOnlyByHltOrError : Obligations.HaltsOnlyByHltOrError := by
  unfold Obligations.HaltsOnlyByHltOrError
  refine ⟨fun s t hr hnone h hhalt => ?_, ErrorKind.code_injective⟩
  rcases step_effect h with ⟨hs, -⟩ | ⟨-, e, -, rfl⟩ | ⟨-, i, hf, hc⟩
  · rw [hr] at hs
    cases hs
  · exact .inr ⟨e.kind, e.info, rfl, signal_raised .., ErrorKind.code_ne_zero _⟩
  · rcases hc.run_eq with heq | ⟨rfl, rfl⟩
    · rw [heq, hr] at hhalt
      cases hhalt
    · exact .inl ⟨runningAt_of_fetch hr hf, rfl, by simp [State.signal, hnone]⟩

end Sys2Proof.Machine
end

section
/-! SUPPORT. What a completed instruction may write, field by field. -/

namespace Sys2Proof.Machine

variable {s t : State} {i : Instr}

theorem exactlyOneFlag_compareFlags (a b : Byte) : ExactlyOneFlag (compareFlags a b) := by
  unfold compareFlags ExactlyOneFlag
  split
  · exact .inl rfl
  · split
    · exact .inr (.inl rfl)
    · exact .inr (.inr rfl)

/-- Below `SP_INIT` the stack pointer counts up without wrapping. -/
theorem State.sp_succ_toNat (h : s.sp < s.cfg.spInit) : (s.sp + 1).toNat = s.sp.toNat + 1 := by
  bv_omega

theorem State.reg_setReg_cases (s : State) (k j : Fin 8) (v : Byte) :
    (s.setReg k v).reg j = s.reg j ∨ j = k := by
  by_cases h : j = k
  · exact .inr h
  · exact .inl (by rw [State.reg_setReg, if_neg h])

namespace Completes

/-- Only CMP writes the flags, and it leaves exactly one set (R21). -/
theorem fl_cases (h : Completes s i t) :
    (i.mnemonic ≠ .cmp ∧ t.fl = s.fl) ∨ (i.mnemonic = .cmp ∧ ExactlyOneFlag t.fl) := by
  cases h with
  | cmp => exact .inr ⟨rfl, exactlyOneFlag_compareFlags _ _⟩
  | _ => exact .inl ⟨Mnemonic.noConfusion, rfl⟩

/-- A push-style instruction moves `sp` down by 1, a pop-style one up by 1 (R22, R77). -/
theorem sp_cases (h : Completes s i t) :
    t.sp = s.sp ∨
      ((i.mnemonic = .push ∨ i.mnemonic = .call) ∧ s.cfg.stackLow < s.sp ∧ t.sp.toNat + 1 = s.sp.toNat) ∨
      ((i.mnemonic = .pop ∨ i.mnemonic = .ret) ∧ s.sp < s.cfg.spInit ∧ t.sp.toNat = s.sp.toNat + 1) := by
  cases h with
  | push _ room => exact .inr (.inl ⟨.inl rfl, room, State.pushAddress_succ room⟩)
  | call _ room => exact .inr (.inl ⟨.inr rfl, room, State.pushAddress_succ room⟩)
  | pop _ filled => exact .inr (.inr ⟨.inl rfl, filled, State.sp_succ_toNat filled⟩)
  | ret filled => exact .inr (.inr ⟨.inr rfl, filled, State.sp_succ_toNat filled⟩)
  | _ => exact .inl rfl

/-- Only a push-style instruction writes memory: one byte, at the push address (R33). -/
theorem mem_cases (h : Completes s i t) :
    t.mem = s.mem ∨
      ((i.mnemonic = .push ∨ i.mnemonic = .call) ∧ s.cfg.stackLow < s.sp ∧ ∃ v, t.mem = s.mem.put s.pushAddress v) := by
  cases h with
  | push _ room => exact .inr ⟨.inl rfl, room, _, rfl⟩
  | call _ room => exact .inr ⟨.inr rfl, room, _, rfl⟩
  | _ => exact .inl rfl

/-- A register is written only by LDI, MUL, ADD or POP, as their first operand (R15). -/
theorem reg_cases (h : Completes s i t) (j : Fin 8) :
    t.reg j = s.reg j ∨
      ((i.mnemonic = .ldi ∨ i.mnemonic = .mul ∨ i.mnemonic = .add ∨ i.mnemonic = .pop) ∧
        i.operands[0]? = some (regByte j)) := by
  cases h with
  | ldi k =>
    exact (State.reg_setReg_cases s k j _).imp_right fun hj : j = k => ⟨.inl rfl, hj ▸ rfl⟩
  | mul k =>
    exact (State.reg_setReg_cases s k j _).imp_right fun hj : j = k => ⟨.inr (.inl rfl), hj ▸ rfl⟩
  | add k =>
    exact (State.reg_setReg_cases s k j _).imp_right fun hj : j = k => ⟨.inr (.inr (.inl rfl)), hj ▸ rfl⟩
  | pop k =>
    exact (State.reg_setReg_cases _ k j _).imp_right fun hj : j = k => ⟨.inr (.inr (.inr rfl)), hj ▸ rfl⟩
  | _ => exact .inl rfl

/-- The two PC policies: advance by the length, or a byte (R18). -/
theorem pc_cases (h : Completes s i t) :
    t.pc = s.pc + i.mnemonic.length ∨
      (i.mnemonic ∈ [Mnemonic.call, .ret, .jmp, .jeq, .jne] ∧ t.pc ≤ 255) := by
  have byte_le (v : Byte) : v.toNat ≤ 255 := Nat.le_of_lt_succ v.isLt
  cases h with
  | call | ret | jmp | jeqTaken | jneTaken => exact .inr ⟨by simp [Instr.mnemonic], byte_le _⟩
  | _ => exact .inl rfl

/-- Flags other than E are not read: the same instruction completes with any values of L and G (R21). -/
theorem with_flags (h : Completes s i t) (l g : Bool) :
    ∃ u, Completes { s with fl := ⟨s.fl.e, l, g⟩ } i u ∧ u = { t with fl := u.fl } ∧ u.fl.e = t.fl.e ∧
      (u.fl = t.fl ∨ u.fl = ⟨s.fl.e, l, g⟩ ∧ t.fl = s.fl) := by
  cases h with
  | cmp j k => exact ⟨_, .cmp j k, rfl, rfl, .inl rfl⟩
  | jeqNotTaken j equal => exact ⟨_, .jeqNotTaken j equal, rfl, rfl, .inr ⟨rfl, rfl⟩⟩
  | jneNotTaken j equal => exact ⟨_, .jneNotTaken j equal, rfl, rfl, .inr ⟨rfl, rfl⟩⟩
  | _ =>
    refine ⟨_, by constructor <;> assumption, ?_⟩
    exact ⟨rfl, rfl, .inr ⟨rfl, rfl⟩⟩

/-- The output is not read, and grows by the one byte of a PRN (R25). -/
theorem with_out (h : Completes s i t) :
    ∃ new : List Byte, t.out = s.out ++ new ∧ new.length ≤ 1 ∧ (new ≠ [] → i.mnemonic = .prn) ∧
      ∀ o, Completes { s with out := o } i { t with out := o ++ new } := by
  cases h with
  | prn j => exact ⟨[s.reg j], rfl, le_rfl, fun _ => rfl, fun _ => .prn j⟩
  | _ =>
    refine ⟨[], by simp, by simp, by simp, fun o => ?_⟩
    rw [List.append_nil]
    constructor <;> assumption

end Completes

end Sys2Proof.Machine
end

section
/-! SUPPORT. What a step may write, and the invariant (R15, R18 to R25, R27). -/

namespace Sys2Proof.Machine

variable {s t : State} {i : Instr}

/-- What raising an error leaves alone, only a completed instruction changes. -/
theorem step_changed {α : Type} (f : State → α) (hraise : ∀ e, f (s.raise e) = f s) (h : step s = .next t)
    (hne : f t ≠ f s) : s.run = .running ∧ ∃ i, fetchInstr s = .ok i ∧ Completes s i t := by
  rcases step_effect h with ⟨-, rfl⟩ | ⟨-, e, -, rfl⟩ | hc
  · exact absurd rfl hne
  · exact absurd (hraise e) hne
  · exact hc

/-- The row of the fetched instruction is the one whose opcode lies at `pc`. -/
theorem runningAt_of_mnemonic {m : Mnemonic} (hr : s.run = .running) (hf : fetchInstr s = .ok i)
    (hm : i.mnemonic = m) : RunningAt s m :=
  hm ▸ runningAt_of_fetch hr hf

/-- And conversely. -/
theorem mnemonic_of_fetch {m : Mnemonic} (hat : RunningAt s m) (hf : fetchInstr s = .ok i) : i.mnemonic = m := by
  obtain ⟨-, b, hb, hl⟩ := hat
  obtain ⟨⟨c, hc, hlc⟩, -⟩ := fetchInstr_eq_ok hf
  rw [hb] at hc
  cases hc
  exact Option.some.inj (hlc.symm.trans hl)

theorem step_cfg (h : step s = .next t) : t.cfg = s.cfg := by
  by_contra hne
  obtain ⟨-, i, -, hc⟩ := step_changed State.cfg (fun _ => rfl) h hne
  exact hne hc.cfg_eq

/-- Settles O24: of the instructions that complete, only CMP writes the flags. -/
theorem onlyCmpWritesFlags : Obligations.OnlyCmpWritesFlags := by
  unfold Obligations.OnlyCmpWritesFlags
  refine fun s t h => ⟨fun hne => ?_, fun hat hrun => ?_⟩
  · obtain ⟨hr, i, hf, hc⟩ := step_changed State.fl (fun _ => rfl) h hne
    rcases hc.fl_cases with ⟨-, heq⟩ | ⟨hm, -⟩
    · exact absurd heq hne
    · exact runningAt_of_mnemonic hr hf hm
  · rcases step_effect h with ⟨hhalt, -⟩ | ⟨-, e, -, rfl⟩ | ⟨-, i, hf, hc⟩
    · rw [hat.1] at hhalt
      cases hhalt
    · cases hrun
    · rcases hc.fl_cases with ⟨hm, -⟩ | ⟨-, hone⟩
      · exact absurd (mnemonic_of_fetch hat hf) hm
      · exact hone

/-- Settles O25: halting, raising and completing all run the same with other values of L and G. -/
theorem lessAndGreaterAreNeverRead : Obligations.LessAndGreaterAreNeverRead := by
  unfold Obligations.LessAndGreaterAreNeverRead
  intro s t l g h
  rcases step_effect h with ⟨hr, rfl⟩ | ⟨hr, e, he, rfl⟩ | ⟨hr, i, hf, hc⟩
  · exact ⟨_, step_halted hr, rfl, rfl, .inr ⟨rfl, rfl⟩⟩
  · exact ⟨_, step_of_stepError hr he, rfl, rfl, .inr ⟨rfl, rfl⟩⟩
  · obtain ⟨u, hu, hframe⟩ := hc.with_flags l g
    exact ⟨u, step_of_completes hr hf hu, hframe⟩

/-- Settles O26: halting, raising and completing all run the same on another output. -/
theorem outputIsAppendedByPrnAndNeverRead : Obligations.OutputIsAppendedByPrnAndNeverRead := by
  unfold Obligations.OutputIsAppendedByPrnAndNeverRead
  intro s t h
  rcases step_effect h with ⟨hr, rfl⟩ | ⟨hr, e, he, rfl⟩ | ⟨hr, i, hf, hc⟩
  · exact ⟨[], by simp, by simp, by simp, fun o => by rw [List.append_nil]; exact step_halted hr⟩
  · exact ⟨[], by simp, by simp, by simp, fun o => by rw [List.append_nil]; exact step_of_stepError hr he⟩
  · obtain ⟨new, hout, hlen, hprn, hany⟩ := hc.with_out
    exact ⟨new, hout, hlen, fun hne => runningAt_of_mnemonic hr hf (hprn hne),
      fun o => step_of_completes hr hf (hany o)⟩

/-- Settles O27: the one byte a push-style instruction writes lies just below `sp`. -/
theorem onlyPushAndCallWriteMemory : Obligations.OnlyPushAndCallWriteMemory := by
  unfold Obligations.OnlyPushAndCallWriteMemory
  intro s t a hsp h hne
  obtain ⟨hr, i, hf, hc⟩ := step_changed (State.read · a) (fun _ => rfl) h hne
  rcases hc.mem_cases with heq | ⟨hm, room, v, hput⟩
  · exact absurd (State.read_congr heq a) hne
  · have ha : a = s.pushAddress := by
      by_contra hna
      exact hne (by rw [State.read, State.read, memRead, memRead, hput, Memory.get_put_of_ne _ v hna])
    have hsucc := State.pushAddress_succ room
    have hlow : s.cfg.stackLow.toNat < s.sp.toNat := room
    have hhigh : s.sp.toNat ≤ s.cfg.spInit.toNat := hsp
    have hat {m : Mnemonic} : i.mnemonic = m → RunningAt s m := runningAt_of_mnemonic hr hf
    exact ⟨hm.imp hat hat, ha, by omega, by omega⟩

/-- Settles O28: the two ways a completed instruction moves `sp`. -/
theorem onlyStackInstructionsMoveSp : Obligations.OnlyStackInstructionsMoveSp := by
  unfold Obligations.OnlyStackInstructionsMoveSp
  intro s t h hne
  obtain ⟨hr, i, hf, hc⟩ := step_changed State.sp (fun _ => rfl) h hne
  have hat {m : Mnemonic} : i.mnemonic = m → RunningAt s m := runningAt_of_mnemonic hr hf
  rcases hc.sp_cases with heq | ⟨hm, -, hdown⟩ | ⟨hm, -, hup⟩
  · exact absurd heq hne
  · exact .inl ⟨hm.imp hat hat, hdown⟩
  · exact .inr ⟨hm.imp hat hat, hup⟩

/-- Settles O29: the register a completed instruction writes is its first operand, which lies at `pc + 1`. -/
theorem onlyFourInstructionsWriteRegisters : Obligations.OnlyFourInstructionsWriteRegisters := by
  unfold Obligations.OnlyFourInstructionsWriteRegisters
  intro s t j h hne
  obtain ⟨hr, i, hf, hc⟩ := step_changed (State.reg · j) (fun _ => rfl) h hne
  have hat {m : Mnemonic} : i.mnemonic = m → RunningAt s m := runningAt_of_mnemonic hr hf
  rcases hc.reg_cases j with heq | ⟨hm, hop⟩
  · exact absurd heq hne
  · exact ⟨hm.imp hat (.imp hat (.imp hat hat)), (instrAt_of_fetch hf).2 0 _ hop⟩

/-- The parameters a run of any length ends with are those it began with. -/
theorem run_cfg {n : Nat} : ∀ {s : State}, Host.Core.run core n s = .next t → t.cfg = s.cfg := by
  induction n with
  | zero => exact fun h => congrArg State.cfg (Host.Outcome.next.inj h).symm
  | succ n ih =>
    intro s h
    obtain ⟨u, hu⟩ := everyStepAnswersNext s
    have hstep : core.step s = .next u := hu
    simp only [Host.Core.run, hstep] at h
    exact (ih h).trans (step_cfg hu)

/-- Settles O30, by induction on the number of steps. -/
theorem parametersNeverChange : Obligations.ParametersNeverChange := by
  unfold Obligations.ParametersNeverChange
  exact fun _ _ _ h => run_cfg h

/-- Settles O31: an instruction that raised nothing completed under one of the two policies. -/
theorem pcAdvancesByLengthOrTransfers : Obligations.PcAdvancesByLengthOrTransfers := by
  unfold Obligations.PcAdvancesByLengthOrTransfers
  intro i s t _ h hnone
  rcases exec_effect h with hc | ⟨e, -, rfl⟩
  · rw [encode_length]
    exact hc.pc_cases
  · cases hnone

theorem step_sp_limits (hlow : s.cfg.stackLow ≤ s.sp) (hhigh : s.sp ≤ s.cfg.spInit) (h : step s = .next t) :
    t.cfg.stackLow ≤ t.sp ∧ t.sp ≤ t.cfg.spInit := by
  rw [step_cfg h]
  by_cases heq : t.sp = s.sp
  · exact heq ▸ ⟨hlow, hhigh⟩
  · obtain ⟨-, i, -, hc⟩ := step_changed State.sp (fun _ => rfl) h heq
    rcases hc.sp_cases with h1 | ⟨-, room, hdown⟩ | ⟨-, filled, hup⟩
    · exact absurd h1 heq
    · constructor <;> bv_omega
    · constructor <;> bv_omega

/-- Settles O22: a push-style instruction completes only above the low limit, a pop-style one only below the high one. -/
theorem stackPointerStaysInItsLimits : Obligations.StackPointerStaysInItsLimits := by
  unfold Obligations.StackPointerStaysInItsLimits
  exact fun _ _ => step_sp_limits

/-- Settles O23: a fetched instruction ends at or below 256, so it began below 256. -/
theorem pcNeverPasses256 : Obligations.PcNeverPasses256 := by
  unfold Obligations.PcNeverPasses256
  intro s t hpc h
  rcases step_effect h with ⟨hr, rfl⟩ | ⟨-, e, -, rfl⟩ | ⟨-, i, hf, hc⟩
  · exact ⟨hpc, fun h256 => ⟨h256, hr⟩⟩
  · exact ⟨hpc, fun h256 => ⟨h256, rfl⟩⟩
  · have hlen := (fetchInstr_eq_ok hf).2.1
    have hone := i.mnemonic.length_bounds.1
    refine ⟨?_, fun h256 => by omega⟩
    rcases hc.pc_cases with hadv | ⟨-, hbyte⟩ <;> omega

theorem step_mem_wf (hwf : s.mem.wf) (h : step s = .next t) : t.mem.wf := by
  by_cases heq : t.mem = s.mem
  · exact heq ▸ hwf
  · obtain ⟨-, i, -, hc⟩ := step_changed State.mem (fun _ => rfl) h heq
    rcases hc.mem_cases with h1 | ⟨-, -, v, hput⟩
    · exact absurd h1 heq
    · exact hput ▸ Memory.put_wf v s.pushAddress_le hwf

theorem step_flags (hfl : s.fl = s.cfg.flagsReset ∨ ExactlyOneFlag s.fl) (h : step s = .next t) :
    t.fl = t.cfg.flagsReset ∨ ExactlyOneFlag t.fl := by
  rw [step_cfg h]
  by_cases heq : t.fl = s.fl
  · exact heq ▸ hfl
  · obtain ⟨-, i, -, hc⟩ := step_changed State.fl (fun _ => rfl) h heq
    rcases hc.fl_cases with ⟨-, h1⟩ | ⟨-, hone⟩
    · exact absurd h1 heq
    · exact .inr hone

/-- A state with an error record that meets the invariant is halted, so a step that leaves a record either raised it or
left a halted state as it was. -/
theorem step_err_explained (hs : s.Inv) (h : step s = .next t) :
    (t.err ≠ none → t.run = .halted) ∧ ∀ e, t.err = some e → ErrorExplained t e := by
  rcases step_effect h with ⟨-, rfl⟩ | ⟨-, e, he, rfl⟩ | ⟨hr, i, -, hc⟩
  · exact ⟨hs.errHalted, hs.errCause⟩
  · refine ⟨fun _ => rfl, fun e' he' => ?_⟩
    cases he'
    exact errorExplained_raise.2 (errorExplained_of_stepError hs.pcRange he)
  · have hnone : t.err = none := by
      rw [hc.err_eq]
      by_contra hne
      rw [hs.errHalted hne] at hr
      cases hr
    exact ⟨fun hne => absurd hnone hne, fun e he => by rw [hnone] at he; cases he⟩

/-- Settles O9: each field of the invariant is kept by its own law. -/
theorem stepKeepsInvariant : Obligations.StepKeepsInvariant := by
  unfold Obligations.StepKeepsInvariant
  intro s t hs h
  obtain ⟨hlow, hhigh⟩ := step_sp_limits hs.spLow hs.spHigh h
  obtain ⟨hhalted, hcause⟩ := step_err_explained hs h
  exact {
    spLow := hlow
    spHigh := hhigh
    pcRange := (pcNeverPasses256 s t hs.pcRange h).1
    memory := step_mem_wf hs.memory h
    flags := step_flags hs.flags h
    errHalted := hhalted
    errCause := hcause }

/-- The reset state meets the invariant whenever its stack limits are in order. -/
theorem State.resetWith_inv {c : Config} (hc : c.wf) : (State.resetWith c).Inv where
  spLow := hc.2
  spHigh := BitVec.le_refl _
  pcRange := Nat.zero_le _
  memory := State.resetWith_mem_wf c
  flags := .inl rfl
  errHalted := fun h => absurd rfl h
  errCause := fun _ h => by cases h

theorem Config.default_wf : Config.default.wf :=
  ⟨OpcodeMap.default_injective, by decide⟩

/-- Settles O8: all three are `State.resetWith` of well-formed parameters. -/
theorem resetMeetsInvariant : Obligations.ResetMeetsInvariant := by
  unfold Obligations.ResetMeetsInvariant
  exact ⟨fun _ => State.resetWith_inv, State.resetWith_inv Config.default_wf, fun _ => State.resetWith_inv⟩

/-- Settles O6: the reset table for the default parameters. -/
theorem resetStateWithDefaultParameters : Obligations.ResetStateWithDefaultParameters := by
  unfold Obligations.ResetStateWithDefaultParameters
  exact ⟨State.resetWith_reg _, rfl, rfl, rfl, rfl, rfl, Config.default_wf, rfl, rfl, rfl,
    fun _ => State.resetWith_read _, rfl⟩

/-- Settles O7: the parameters pass launch's first check and the image fails its second. -/
theorem longImageIsRefused : Obligations.LongImageIsRefused := by
  unfold Obligations.LongImageIsRefused
  intro c image hc hlen
  rw [launch, if_neg (not_not_intro hc), if_pos hlen]

end Sys2Proof.Machine
end

section
/-! SUPPORT. Reading back what a register write, the ALU, a push and a pop leave. -/

namespace Sys2Proof.Machine

variable {s t : State}

theorem State.reg_setReg_self (s : State) (i : Fin 8) (v : Byte) : (s.setReg i v).reg i = v := by
  rw [State.reg_setReg, if_pos rfl]

theorem sameRegsBut_setReg (s : State) (i : Fin 8) (v : Byte) : SameRegsBut i s (s.setReg i v) :=
  fun j hj => by rw [State.reg_setReg, if_neg hj]

theorem mulBytes_toNat (a b : Byte) : (mulBytes a b).toNat = (a.toNat * b.toNat) % 256 := by
  simp [mulBytes]

theorem addBytes_toNat (a b : Byte) : (addBytes a b).toNat = (a.toNat + b.toNat) % 256 := by
  simp [addBytes]

theorem compareFlags_e (a b : Byte) : (compareFlags a b).e = true ↔ a.toNat = b.toNat := by
  unfold compareFlags
  split_ifs <;> simp_all

theorem compareFlags_l (a b : Byte) : (compareFlags a b).l = true ↔ a.toNat < b.toNat := by
  unfold compareFlags
  split_ifs <;> simp <;> omega

theorem compareFlags_g (a b : Byte) : (compareFlags a b).g = true ↔ b.toNat < a.toNat := by
  unfold compareFlags
  split_ifs <;> simp <;> omega

theorem State.read_sp (s : State) : s.read s.sp.toNat = .ok (s.mem.get s.sp.toNat) :=
  memRead_ok (Nat.le_of_lt_succ s.sp.isLt)

/-- The pushed byte is read back at the push address, -/
theorem read_of_pushed {v : Byte} (hwf : s.mem.wf) (h : t.mem = s.mem.put s.pushAddress v) :
    t.read s.pushAddress = .ok v :=
  memRead_memWrite_self hwf (h ▸ memWrite_ok v s.pushAddress_le)

/-- and every other address reads as before. -/
theorem sameMemoryBut_of_pushed {v : Byte} (h : t.mem = s.mem.put s.pushAddress v) :
    SameMemoryBut s.pushAddress s t :=
  fun _ ha => memRead_memWrite_of_ne ha (h ▸ memWrite_ok v s.pushAddress_le)

/-- After a push the stack is not empty. -/
theorem sp_pred_lt_spInit (room : s.cfg.stackLow < s.sp) (hhigh : s.sp ≤ s.cfg.spInit) :
    s.sp - 1 < s.cfg.spInit := by
  bv_omega

end Sys2Proof.Machine
end

section
/-! SUPPORT. The thirteen instructions, one statement each: the effect by `Completes`, the errors by the rules of `exec`,
the fault of the position by the fetch (R70 to R87). -/

namespace Sys2Proof.Machine

variable {s : State}

/-- A three-byte instruction at 254 or 255 passes the end of memory. -/
theorem step_of_overrun_three {m : Mnemonic} (hm : m.length = 3) (h : RunningAt s m) (hpc : 254 ≤ s.pc) :
    step s = .next (Raised s .addressOutOfRange 256) :=
  step_of_overrun h (by omega)

/-- A two-byte instruction at 255 does. -/
theorem step_of_overrun_two {m : Mnemonic} (hm : m.length = 2) (h : RunningAt s m) (hpc : s.pc = 255) :
    step s = .next (Raised s .addressOutOfRange 256) :=
  step_of_overrun h (by omega)

/-- A one-byte instruction is executed wherever its opcode lies. -/
theorem fetchInstr_of_length_one {m : Mnemonic} (hm : m.length = 1) (h : RunningAt s m) :
    ∃ i : Instr, i.mnemonic = m ∧ fetchInstr s = .ok i ∧ step s = exec i s := by
  obtain ⟨b, hb, -⟩ := h.2
  have hpc := (memRead_eq_ok hb).1
  exact fetchInstr_of_fits h (by omega)

/-- Settles O37: the register reads back the immediate, and `advance` touches only `pc`. -/
theorem ldiLoadsTheImmediate : Obligations.LdiLoadsTheImmediate := by
  unfold Obligations.LdiLoadsTheImmediate
  refine fun s imm => ⟨fun i => ?_, fun r hr => conclude_regIndex_bad hr _, step_of_overrun_three rfl, fun _ _ => rfl⟩
  exact ⟨_, exec_of_completes (.ldi i imm), State.reg_setReg_self .., sameRegsBut_setReg _ i _, fun _ => rfl, rfl⟩

/-- Settles O38: the register's value is emitted, and no check can fail behind a good index. -/
theorem prnEmitsTheRegister : Obligations.PrnEmitsTheRegister := by
  unfold Obligations.PrnEmitsTheRegister
  refine fun s => ⟨fun i => ?_, fun r hr => conclude_regIndex_bad hr _, step_of_overrun_two rfl, fun _ _ => rfl⟩
  exact ⟨_, exec_of_completes (.prn i), rfl, fun _ => rfl, fun _ => rfl, rfl⟩

/-- Settles O39: the register reads back the ALU's product, which is modulo 256. -/
theorem mulMultipliesModulo256 : Obligations.MulMultipliesModulo256 := by
  unfold Obligations.MulMultipliesModulo256
  refine fun s => ⟨fun i j => ⟨_, exec_of_completes (.mul i j), ?_, sameRegsBut_setReg _ i _, fun _ => rfl, rfl⟩,
    fun _ b => execAlu_bad_first _ b, fun _ _ => execAlu_bad_second _, step_of_overrun_three rfl, fun _ _ _ => rfl⟩
  exact (congrArg BitVec.toNat (State.reg_setReg_self ..)).trans (mulBytes_toNat ..)

/-- Settles O40: the register reads back the ALU's sum, which is modulo 256. -/
theorem addAddsModulo256 : Obligations.AddAddsModulo256 := by
  unfold Obligations.AddAddsModulo256
  refine fun s => ⟨fun i j => ⟨_, exec_of_completes (.add i j), ?_, sameRegsBut_setReg _ i _, fun _ => rfl, rfl⟩,
    fun _ b => execAlu_bad_first _ b, fun _ _ => execAlu_bad_second _, step_of_overrun_three rfl, fun _ _ _ => rfl⟩
  exact (congrArg BitVec.toNat (State.reg_setReg_self ..)).trans (addBytes_toNat ..)

/-- Settles O41: each flag is one comparison of the two values. -/
theorem cmpWritesAllThreeFlags : Obligations.CmpWritesAllThreeFlags := by
  unfold Obligations.CmpWritesAllThreeFlags
  refine fun s => ⟨fun i j => ?_, fun _ b => execAlu_bad_first _ b, fun _ _ => execAlu_bad_second _,
    step_of_overrun_three rfl, fun _ _ _ => rfl⟩
  exact ⟨_, exec_of_completes (.cmp i j), compareFlags_e .., compareFlags_l .., compareFlags_g .., fun _ => rfl,
    fun _ => rfl, rfl⟩

/-- Settles O42: with room the push address is one below `sp` and reads back the register. -/
theorem pushStoresBelowTheStackPointer : Obligations.PushStoresBelowTheStackPointer := by
  unfold Obligations.PushStoresBelowTheStackPointer
  refine fun s => ⟨fun i hwf room => ?_, exec_push_full, fun r hr => conclude_regIndex_bad hr _,
    step_of_overrun_two rfl, fun _ _ => rfl⟩
  exact ⟨_, exec_of_completes (.push i room), State.pushAddress_succ room, rfl, read_of_pushed hwf rfl,
    sameMemoryBut_of_pushed rfl, fun _ => rfl, rfl⟩

/-- Settles O43: with a byte on the stack `sp` does not wrap, and memory is only read. -/
theorem popLoadsTheTopOfStack : Obligations.PopLoadsTheTopOfStack := by
  unfold Obligations.PopLoadsTheTopOfStack
  refine fun s => ⟨fun i filled => ?_, exec_pop_empty, fun r hr => conclude_regIndex_bad hr _,
    step_of_overrun_two rfl, fun _ _ => rfl⟩
  exact ⟨_, _, exec_of_completes (.pop i filled), s.read_sp, State.reg_setReg_self .., sameRegsBut_setReg _ i _,
    State.sp_succ_toNat filled, fun _ => rfl, rfl⟩

/-- Settles O44: with room and a return address below 256 the push address reads it back. -/
theorem callPushesTheReturnAddressAndJumps : Obligations.CallPushesTheReturnAddressAndJumps := by
  unfold Obligations.CallPushesTheReturnAddressAndJumps
  refine fun s => ⟨fun i hwf room hret => ?_, exec_call_full, exec_call_no_return,
    fun r hr => conclude_regIndex_bad hr _, step_of_overrun_two rfl, fun _ _ => rfl⟩
  exact ⟨_, exec_of_completes (.call i room hret), rfl, State.pushAddress_succ room, rfl, read_of_pushed hwf rfl,
    sameMemoryBut_of_pushed rfl, fun _ => rfl, rfl⟩

/-- Settles O45: the top byte is the target; a one-byte instruction fits at every address. -/
theorem retPopsThePc : Obligations.RetPopsThePc := by
  unfold Obligations.RetPopsThePc
  refine fun s => ⟨fun filled => ?_, exec_ret_empty, fun hat => ?_, fun _ => rfl⟩
  · exact ⟨_, _, exec_of_completes (.ret filled), s.read_sp, rfl, State.sp_succ_toNat filled, fun _ => rfl,
      fun _ => rfl, rfl⟩
  · obtain ⟨i, hm, -, hs⟩ := fetchInstr_of_length_one rfl hat
    cases i <;> cases hm
    exact hs

/-- Settles O46: the target is the register's value. -/
theorem jmpSetsThePc : Obligations.JmpSetsThePc := by
  unfold Obligations.JmpSetsThePc
  refine fun s => ⟨fun i => ?_, fun r hr => conclude_regIndex_bad hr _, step_of_overrun_two rfl, fun _ _ => rfl⟩
  exact ⟨_, exec_of_completes (.jmp i), rfl, fun _ => rfl, fun _ => rfl, rfl⟩

/-- Settles O47: taken when E is set, not taken when it is clear. -/
theorem jeqJumpsIffEqual : Obligations.JeqJumpsIffEqual := by
  unfold Obligations.JeqJumpsIffEqual
  refine fun s => ⟨fun i => ?_, fun r hr => conclude_regIndex_bad hr _, step_of_overrun_two rfl, fun _ _ => rfl⟩
  cases equal : s.fl.e with
  | true => exact ⟨_, exec_of_completes (.jeqTaken i equal), fun _ => rfl, nofun, fun _ => rfl, fun _ => rfl, rfl⟩
  | false => exact ⟨_, exec_of_completes (.jeqNotTaken i equal), nofun, fun _ => rfl, fun _ => rfl, fun _ => rfl, rfl⟩

/-- Settles O48: taken when E is clear, not taken when it is set. -/
theorem jneJumpsIffNotEqual : Obligations.JneJumpsIffNotEqual := by
  unfold Obligations.JneJumpsIffNotEqual
  refine fun s => ⟨fun i => ?_, fun r hr => conclude_regIndex_bad hr _, step_of_overrun_two rfl, fun _ _ => rfl⟩
  cases equal : s.fl.e with
  | true => exact ⟨_, exec_of_completes (.jneNotTaken i equal), nofun, fun _ => rfl, fun _ => rfl, fun _ => rfl, rfl⟩
  | false => exact ⟨_, exec_of_completes (.jneTaken i equal), fun _ => rfl, nofun, fun _ => rfl, fun _ => rfl, rfl⟩

/-- Settles O49: nothing is checked; a one-byte instruction fits at every address. -/
theorem hltAdvancesAndHalts : Obligations.HltAdvancesAndHalts := by
  unfold Obligations.HltAdvancesAndHalts
  refine fun s => ⟨?_, fun hat => ?_, step_past_255, fun _ => rfl⟩
  · exact ⟨_, exec_of_completes .hlt, rfl, rfl, fun _ => rfl, fun _ => rfl, rfl,
      fun hnone => by simp [State.signal, hnone]⟩
  · obtain ⟨i, hm, -, hs⟩ := fetchInstr_of_length_one rfl hat
    cases i <;> cases hm
    exact hs

end Sys2Proof.Machine
end

section
/-! SUPPORT. Laws across instructions: CMP with swapped operands, the stack round trips, fetch coherence (R43, R75, R77). -/

namespace Sys2Proof.Machine

variable {s t : State}

theorem compareFlags_swap (a b : Byte) :
    compareFlags b a = ⟨(compareFlags a b).e, (compareFlags a b).g, (compareFlags a b).l⟩ := by
  rcases lt_trichotomy a.toNat b.toNat with h | h | h
  · simp [compareFlags, h, h.ne, h.ne', h.not_gt]
  · simp [compareFlags, h]
  · simp [compareFlags, h, h.ne, h.ne', h.not_gt]

/-- Settles O32: both orders complete, and `compareFlags_swap` relates what they leave. -/
theorem compareSwappedSwapsLessAndGreater : Obligations.CompareSwappedSwapsLessAndGreater := by
  unfold Obligations.CompareSwappedSwapsLessAndGreater
  intro s i j
  have e_false {k l : Fin 8} (hne : s.reg k ≠ s.reg l) : (compareFlags (s.reg k) (s.reg l)).e = false := by
    rw [← Bool.not_eq_true, compareFlags_e]
    exact fun h => hne (BitVec.eq_of_toNat_eq h)
  exact ⟨_, _, exec_of_completes (.cmp i j), exec_of_completes (.cmp j i), exactlyOneFlag_compareFlags _ _,
    compareFlags_swap _ _, fun hne => ⟨e_false hne, e_false hne.symm⟩⟩

/-- Settles O33: the POP reads the address the PUSH stored at. -/
theorem pushThenPopRoundTrip : Obligations.PushThenPopRoundTrip := by
  unfold Obligations.PushThenPopRoundTrip
  intro s i j hwf room hhigh
  refine ⟨_, _, exec_of_completes (.push i room), exec_of_completes (.pop j (sp_pred_lt_spInit room hhigh)), ?_,
    sameRegsBut_setReg _ j _, sameMemoryBut_of_pushed rfl, ?_⟩
  · exact (State.reg_setReg_self ..).trans (Memory.get_put_self s.pushAddress _ hwf)
  · simp [State.advance, State.setReg]

/-- Settles O34: the RET reads the byte the CALL stored, wherever the run went in between. -/
theorem callThenReturnResumes : Obligations.CallThenReturnResumes := by
  unfold Obligations.CallThenReturnResumes
  intro s i hwf room hhigh hret
  refine ⟨_, exec_of_completes (.call i room hret), rfl, fun v hcfg hsp hread => ?_⟩
  have filled : v.sp < v.cfg.spInit := by
    rw [hcfg, hsp]
    exact sp_pred_lt_spInit room hhigh
  have htop : v.mem.get v.sp.toNat = BitVec.ofNat 8 (s.pc + 2) := by
    rw [hsp]
    exact (memRead_eq_ok (hread.trans (read_of_pushed hwf rfl))).2
  refine ⟨_, exec_of_completes (.ret filled), ?_, ?_, rfl⟩
  · rw [State.jump_pc, htop, BitVec.toNat_ofNat, Nat.mod_eq_of_lt (by omega)]
  · rw [State.jump_sp, hsp, BitVec.sub_add_cancel]

/-- A byte stored within memory is among the bytes read from an address on, if it lies there. -/
theorem codeBytes_put_getElem? {m : Memory} {a b k n : Nat} (v : Byte) (hwf : m.wf) (hk : k < n) (hb : b ≤ 255)
    (h : a + k = b) : (codeBytes (m.put b v) a n)[k]? = some v := by
  rw [codeBytes_getElem? hk, h, if_pos hb, Memory.get_put_self b v hwf]

/-- Settles O36: with room, and an address to return to, the instruction completed, and its byte is read where the next
step fetches. -/
theorem storedByteIsFetchedAtOnce : Obligations.StoredByteIsFetchedAtOnce := by
  unfold Obligations.StoredByteIsFetchedAtOnce
  intro s t i k hwf room hk haddr
  constructor
  · intro h
    rw [exec_of_completes (.push i room)] at h
    cases h
    exact codeBytes_put_getElem? _ hwf hk s.pushAddress_le haddr
  · intro hret h
    rw [exec_of_completes (.call i room hret)] at h
    cases h
    exact codeBytes_put_getElem? _ hwf hk s.pushAddress_le haddr

end Sys2Proof.Machine
end

section
/-! SUPPORT. The stack as a list, top first (R77). -/

namespace Sys2Proof.Machine

variable {s t : State} {v : Byte}

theorem State.stackBytes_length (s : State) : s.stackBytes.length = s.cfg.spInit.toNat - s.sp.toNat := by
  simp [State.stackBytes]

/-- The list depends on the parameters, `sp` and the bytes from `sp` on. -/
theorem stackBytes_congr (hcfg : t.cfg = s.cfg) (hsp : t.sp = s.sp)
    (hmem : ∀ a, s.sp.toNat ≤ a → t.mem.get a = s.mem.get a) : t.stackBytes = s.stackBytes := by
  rw [State.stackBytes, State.stackBytes, hcfg, hsp]
  exact List.map_congr_left fun a ha => hmem a (List.mem_range'_1.1 ha).1

/-- A stack that is not empty is the byte at `sp` on top of the stack from `sp + 1`. -/
theorem stackBytes_eq_cons (filled : s.sp < s.cfg.spInit) :
    s.stackBytes = s.mem.get s.sp.toNat :: ({ s with sp := s.sp + 1 } : State).stackBytes := by
  have hlt : s.sp.toNat < s.cfg.spInit.toNat := filled
  obtain ⟨n, hn⟩ : ∃ n, s.cfg.spInit.toNat - s.sp.toNat = n + 1 := ⟨_, (Nat.sub_add_cancel (by omega)).symm⟩
  have hn' : s.cfg.spInit.toNat - (s.sp.toNat + 1) = n := by omega
  simp only [State.stackBytes, State.sp_succ_toNat filled]
  rw [hn, hn', List.range'_succ, List.map_cons]

/-- Pushing puts the byte on top: the bytes above it lie at other addresses. -/
theorem stackBytes_of_pushed (hwf : s.mem.wf) (room : s.cfg.stackLow < s.sp) (hhigh : s.sp ≤ s.cfg.spInit)
    (hcfg : t.cfg = s.cfg) (hsp : t.sp = s.sp - 1) (hmem : t.mem = s.mem.put s.pushAddress v) :
    t.stackBytes = v :: s.stackBytes := by
  have filled : t.sp < t.cfg.spInit := by
    rw [hcfg, hsp]
    exact sp_pred_lt_spInit room hhigh
  have htop : t.mem.get t.sp.toNat = v := by
    rw [hmem, hsp]
    exact Memory.get_put_self s.pushAddress v hwf
  have hsucc := State.pushAddress_succ room
  rw [stackBytes_eq_cons filled, htop]
  refine congrArg _ (stackBytes_congr hcfg (by simp [hsp]) fun a ha => ?_)
  rw [show ({ t with sp := t.sp + 1 } : State).mem = t.mem from rfl, hmem]
  exact Memory.get_put_of_ne _ v (by omega)

/-- A stack with a top byte: `sp` is below `SP_INIT`, the byte lies there, and the rest starts above it. -/
theorem of_stackBytes_eq_cons {rest : List Byte} (h : s.stackBytes = v :: rest) :
    s.sp < s.cfg.spInit ∧ s.mem.get s.sp.toNat = v ∧ ({ s with sp := s.sp + 1 } : State).stackBytes = rest := by
  have hlen := s.stackBytes_length
  rw [h, List.length_cons] at hlen
  have filled : s.sp < s.cfg.spInit := show s.sp.toNat < s.cfg.spInit.toNat by omega
  rw [stackBytes_eq_cons filled] at h
  exact ⟨filled, List.cons.inj h⟩

/-- No other instruction touches `sp` or memory, whether it completes or raises. -/
theorem stackBytes_of_exec {i : Instr} (hm : i.mnemonic ∉ [Mnemonic.push, .call, .pop, .ret])
    (h : exec i s = .next t) : t.stackBytes = s.stackBytes := by
  rcases exec_effect h with hc | ⟨e, -, rfl⟩
  · have hsp : t.sp = s.sp := by
      rcases hc.sp_cases with heq | ⟨hpush, -⟩ | ⟨hpop, -⟩
      · exact heq
      · rcases hpush with hm' | hm' <;> simp [hm'] at hm
      · rcases hpop with hm' | hm' <;> simp [hm'] at hm
    have hmem : t.mem = s.mem := by
      rcases hc.mem_cases with heq | ⟨hpush, -⟩
      · exact heq
      · rcases hpush with hm' | hm' <;> simp [hm'] at hm
    exact stackBytes_congr hc.cfg_eq hsp fun a _ => by rw [hmem]
  · rfl

/-- Settles O35: a push-style instruction conses, a pop-style one takes the head and leaves the tail. -/
theorem stackIsLastInFirstOut : Obligations.StackIsLastInFirstOut := by
  unfold Obligations.StackIsLastInFirstOut
  intro s hwf hlow hhigh
  have hlow' : s.cfg.stackLow.toNat ≤ s.sp.toNat := hlow
  refine ⟨s.stackBytes_length, by rw [s.stackBytes_length]; omega, fun i room => ?_, fun i room hret => ?_,
    fun i v rest h => ?_, fun v rest h => ?_, fun _ _ => stackBytes_of_exec⟩
  · exact ⟨_, exec_of_completes (.push i room), stackBytes_of_pushed hwf room hhigh rfl rfl rfl⟩
  · exact ⟨_, exec_of_completes (.call i room hret), stackBytes_of_pushed hwf room hhigh rfl rfl rfl⟩
  · obtain ⟨filled, rfl, rfl⟩ := of_stackBytes_eq_cons h
    exact ⟨_, exec_of_completes (.pop i filled), State.reg_setReg_self .., rfl⟩
  · obtain ⟨filled, rfl, rfl⟩ := of_stackBytes_eq_cons h
    exact ⟨_, exec_of_completes (.ret filled), rfl, rfl⟩

end Sys2Proof.Machine
end
